-- ==== Sys2Proof/Word.lean ====
section
/-! DEFINITION. The three sizes of bit pattern the spec uses (R7, R13): 16-bit words, 8-bit
addresses and immediates, 4-bit register indices. Everything computed on them that a test could
show wrong stands in the files under Machine/. -/

namespace Sys2Proof

/-- A register's content, a memory cell's content or an instruction (R7: `XLEN` = `ILEN` = 16). -/
abbrev Word := BitVec 16

/-- A memory address or an 8-bit immediate (R7: `AW` = 8; R50, R80). -/
abbrev Addr := BitVec 8

/-- The index of a register, one hex digit (R22, R85). -/
abbrev RegIdx := BitVec 4

end Sys2Proof
end

