-- ==== Sys2Proof/Syntax.lean ====
section
/-! DEFINITION. The 16 instructions (R86), one constructor per row of spec/opcode_table.json, with
the fields that row lists and in the operand form R82 gives. A field the spec calls ignored is kept
as the constructor's LAST argument (named `ign`): no bit of a word is lost by decoding, and that the
field changes nothing (R88) is a statement about the machine, not a loss of information here. -/

namespace Sys2Proof

/-- An instruction. `d`, `s`, `t` are the register fields and `addr` the low byte (R80). -/
inductive Instr where
  /-- opcode 0, form N: halt (R190) -/
  | hlt (ign : BitVec 12)
  /-- opcode 1, form RRR: add (R133) -/
  | add (d s t : RegIdx)
  /-- opcode 2, form RRR: subtract (R134) -/
  | sub (d s t : RegIdx)
  /-- opcode 3, form RRR: bitwise AND (R135) -/
  | and (d s t : RegIdx)
  /-- opcode 4, form RRR: bitwise XOR (R136) -/
  | xor (d s t : RegIdx)
  /-- opcode 5, form RRR: left shift of the signed value (R137) -/
  | shl (d s t : RegIdx)
  /-- opcode 6, form RRR: right shift of the signed value (R138) -/
  | shr (d s t : RegIdx)
  /-- opcode 7, form RI: load immediate (R160) -/
  | lda (d : RegIdx) (addr : Addr)
  /-- opcode 8, form RI: load from memory, or from the input port (R161) -/
  | ld (d : RegIdx) (addr : Addr)
  /-- opcode 9, form RI: store to memory, or to the output port (R162) -/
  | st (d : RegIdx) (addr : Addr)
  /-- opcode A, form RR: indirect load (R163) -/
  | ldi (d t : RegIdx) (ign : BitVec 4)
  /-- opcode B, form RR: indirect store (R164) -/
  | sti (d t : RegIdx) (ign : BitVec 4)
  /-- opcode C, form RI: branch if zero (R191) -/
  | bz (d : RegIdx) (addr : Addr)
  /-- opcode D, form RI: branch if positive (R192) -/
  | bp (d : RegIdx) (addr : Addr)
  /-- opcode E, form R: indirect jump (R193) -/
  | jr (d : RegIdx) (ign : BitVec 8)
  /-- opcode F, form RI: call, jump and link (R194) -/
  | jl (d : RegIdx) (addr : Addr)
  deriving DecidableEq, Repr

end Sys2Proof
end

