-- ==== Sys2Proof/WellFormed.lean ====
section
/-! DEFINITION. Which instructions are well formed. The field types already hold every operand to
the range its encoding has, so every term of `Instr` is the decoding of a word. What is left to check
is R88 and R90: the spec's assembler writes an ignored field as zero. A term whose ignored field is
not zero still decodes and runs (R88); no statement of this package assumes well-formedness to shut
such a word out. -/

namespace Sys2Proof

/-- The ignored field of the instruction, if it has one, is zero, as the assembler writes it
(R88, R90). -/
def Instr.wellFormed : Instr → Bool
  | .hlt ign => ign == 0#12
  | .add _ _ _ => true
  | .sub _ _ _ => true
  | .and _ _ _ => true
  | .xor _ _ _ => true
  | .shl _ _ _ => true
  | .shr _ _ _ => true
  | .lda _ _ => true
  | .ld _ _ => true
  | .st _ _ => true
  | .ldi _ _ ign => ign == 0#4
  | .sti _ _ ign => ign == 0#4
  | .bz _ _ => true
  | .bp _ _ => true
  | .jr _ ign => ign == 0#8
  | .jl _ _ => true

/-- The instruction with its ignored field cleared: what the assembler writes for it (R88). -/
def Instr.canonical : Instr → Instr
  | .hlt _ => .hlt 0#12
  | .add d s t => .add d s t
  | .sub d s t => .sub d s t
  | .and d s t => .and d s t
  | .xor d s t => .xor d s t
  | .shl d s t => .shl d s t
  | .shr d s t => .shr d s t
  | .lda d addr => .lda d addr
  | .ld d addr => .ld d addr
  | .st d addr => .st d addr
  | .ldi d t _ => .ldi d t 0#4
  | .sti d t _ => .sti d t 0#4
  | .bz d addr => .bz d addr
  | .bp d addr => .bp d addr
  | .jr d _ => .jr d 0#8
  | .jl d addr => .jl d addr

end Sys2Proof
end

