-- ==== Sys2Proof/Decode.lean ====
section
/-! DEFINITION. The decoder and the encoder, both written from R80 to R88. Decoding is total: every
16-bit word is exactly one of the 16 instructions (R87), so there is no rejection to name. -/

namespace Sys2Proof

/-! The fields of an instruction word (R80, R103). -/

/-- `op = w[15:12]` (R80). -/
def fieldOp (w : Word) : BitVec 4 := w.extractLsb' 12 4

/-- `d = w[11:8]` (R80). -/
def fieldD (w : Word) : RegIdx := w.extractLsb' 8 4

/-- `s = w[7:4]` (R80). -/
def fieldS (w : Word) : RegIdx := w.extractLsb' 4 4

/-- `t = w[3:0]` (R80). -/
def fieldT (w : Word) : RegIdx := w.extractLsb' 0 4

/-- `addr = w[7:0]`, the `s` and `t` fields concatenated (R80). -/
def fieldAddr (w : Word) : Addr := w.extractLsb' 0 8

/-- The bits `w[11:0]` that `HLT` ignores (R82, R88). -/
def fieldLow12 (w : Word) : BitVec 12 := w.extractLsb' 0 12

/-- The decoder (R86): `w[15:12]` alone selects the instruction, one case for each of its 16 values
and no default case (R104). -/
def decode (w : Word) : Instr :=
  match w[15], w[14], w[13], w[12] with
  | false, false, false, false => .hlt (fieldLow12 w)
  | false, false, false, true  => .add (fieldD w) (fieldS w) (fieldT w)
  | false, false, true,  false => .sub (fieldD w) (fieldS w) (fieldT w)
  | false, false, true,  true  => .and (fieldD w) (fieldS w) (fieldT w)
  | false, true,  false, false => .xor (fieldD w) (fieldS w) (fieldT w)
  | false, true,  false, true  => .shl (fieldD w) (fieldS w) (fieldT w)
  | false, true,  true,  false => .shr (fieldD w) (fieldS w) (fieldT w)
  | false, true,  true,  true  => .lda (fieldD w) (fieldAddr w)
  | true,  false, false, false => .ld (fieldD w) (fieldAddr w)
  | true,  false, false, true  => .st (fieldD w) (fieldAddr w)
  | true,  false, true,  false => .ldi (fieldD w) (fieldT w) (fieldS w)
  | true,  false, true,  true  => .sti (fieldD w) (fieldT w) (fieldS w)
  | true,  true,  false, false => .bz (fieldD w) (fieldAddr w)
  | true,  true,  false, true  => .bp (fieldD w) (fieldAddr w)
  | true,  true,  true,  false => .jr (fieldD w) (fieldAddr w)
  | true,  true,  true,  true  => .jl (fieldD w) (fieldAddr w)

/-- The word the host numbers as `w`, with `nbits` of its bits given by the table and every higher
bit zero. Each row of the table is one 16-bit word (R80), bit 0 the least significant (R8). -/
def tableWord (nbits w : Nat) : Word := BitVec.ofNat 16 (w % 2 ^ nbits)

/-- The decoder on a word numbered as spec/opcode_table.json numbers it. `none` only where more bits
are asked for than an instruction has: the decoder itself refuses no word (R87). -/
def decodeTableWord (nbits w : Nat) : Option Instr :=
  if nbits ≤ 16 then some (decode (tableWord nbits w)) else none

/-- The opcode map of R86 read from the instruction's side. -/
def Instr.opcode : Instr → BitVec 4
  | .hlt _ => 0x0#4
  | .add _ _ _ => 0x1#4
  | .sub _ _ _ => 0x2#4
  | .and _ _ _ => 0x3#4
  | .xor _ _ _ => 0x4#4
  | .shl _ _ _ => 0x5#4
  | .shr _ _ _ => 0x6#4
  | .lda _ _ => 0x7#4
  | .ld _ _ => 0x8#4
  | .st _ _ => 0x9#4
  | .ldi _ _ _ => 0xA#4
  | .sti _ _ _ => 0xB#4
  | .bz _ _ => 0xC#4
  | .bp _ _ => 0xD#4
  | .jr _ _ => 0xE#4
  | .jl _ _ => 0xF#4

/-- The low 12 bits of an instruction's word, by operand form (R82): `d`, then `s` and `t`, or
`addr`, or an ignored field in its place. -/
def Instr.low12 : Instr → BitVec 12
  | .hlt ign => ign
  | .add d s t => d ++ s ++ t
  | .sub d s t => d ++ s ++ t
  | .and d s t => d ++ s ++ t
  | .xor d s t => d ++ s ++ t
  | .shl d s t => d ++ s ++ t
  | .shr d s t => d ++ s ++ t
  | .lda d addr => d ++ addr
  | .ld d addr => d ++ addr
  | .st d addr => d ++ addr
  | .ldi d t ign => d ++ ign ++ t
  | .sti d t ign => d ++ ign ++ t
  | .bz d addr => d ++ addr
  | .bp d addr => d ++ addr
  | .jr d ign => d ++ ign
  | .jl d addr => d ++ addr

/-- The encoder (R80, R86, R90): the opcode in the most significant nibble (R81), then the low 12
bits of the instruction's form. -/
def encode (i : Instr) : Word := i.opcode ++ i.low12

end Sys2Proof
end

