-- ==== Sys2Proof/Config.lean ====
section
/-! DEFINITION. The implementation parameters of R7. All but one are fixed by the spec and stand
here as their values; `inputDecode` is the one the spec leaves OPEN (decision D3), so it is an
opaque constant with no body. -/

namespace Sys2Proof.Config

/-- `PC_RESET`, the entry point (R7, R262). -/
def pcReset : Nat := 0x10

/-- The highest word address, the last of the `MEMSIZE` = 256 cells (R7, R50). -/
def topAddr : Nat := 0xFF

/-- `IO_ADDR`, the cell that is also the input and output port (R7, R31). -/
def ioAddr : Addr := 0xFF#8

/-- `SMIN`, the least result the ALU accepts (R7). -/
def smin : Int := -32768

/-- `SMAX`, the greatest result the ALU accepts (R7). -/
def smax : Int := 32767

/-- The host's conversion of an input line into a word (R7, D3; log entry 3). The spec leaves it
OPEN, so nothing is known of it: a claim that goes through it holds for every conversion. -/
opaque inputDecode : String → Word

end Sys2Proof.Config
end

