-- ==== Sys2Proof/Machine/State.lean ====
section
/-! DEFINITION. The state of the core (R20), the reasons a step can stop, and the state after reset
(R39, R261). Plain data throughout. -/

namespace Sys2Proof.Machine

/-- The memory array (R31, R50): word-addressed cells of 16 bits, listed as (address, content)
pairs. `Memory.wf` (Machine/Ops.lean) is its canonical form; a cell that is not listed holds
`Memory.unlisted`. The spec has no byte-addressed view (R58), so a cell holds a word (log entry 1). -/
abbrev Memory := List (Nat × Word)

/-- The engine's run status (R32, R100). -/
inductive RunStatus where
  /-- a step may happen -/
  | running
  /-- ended by `HLT` or by the pc exceeding 255; terminal -/
  | halted
  /-- ended by a fatal error; terminal -/
  | faulted
  deriving DecidableEq, Repr

/-- The kinds of fatal error (R220), with `noFault` for the reset value. -/
inductive FaultKind where
  /-- code 0: nothing has been raised -/
  | noFault
  /-- code 1: an ALU result outside the signed 16-bit range (R221) -/
  | arithmeticOverflow
  /-- code 2: a write to register 0 (R222) -/
  | reservedRegisterWrite
  /-- code 3: a shift by a negative count (R223) -/
  | shiftCountNegative
  /-- code 4: an indirect address above `0x00FF` (R224) -/
  | addressOutOfRange
  deriving DecidableEq, Repr

/-- The fault record (R33): what a fatal error reports. Absent fields are `none`; `value` is the
unbounded integer the spec names (D11, log entry 7). -/
structure FaultRecord where
  kind  : FaultKind
  pc    : Option Nat
  value : Option Int
  deriving DecidableEq, Repr

/-- An event at the I/O port (R111): `In(w)` and `Out(w)`. -/
inductive Event where
  /-- an input word was consumed (R53) -/
  | input (w : Word)
  /-- an output word was emitted (R55) -/
  | output (w : Word)
  deriving DecidableEq, Repr

/-- Why the core has no step. The spec's fatal errors are NOT among these: raising one is a next
state with `run = faulted` (R108). -/
inductive Fault where
  /-- Raised by `LD Rd, 0xFF` (`execLd`) when no input word is offered: the core waits and has no
  step (R101, R112, U5). Safe: nothing can be proved of what follows until a word is offered. -/
  | waiting
  /-- Raised by `step` when the run has already ended: Halted and Faulted are terminal (R100,
  R112). Safe: the core takes no further step. -/
  | terminal
  /-- Raised by `step` when the engine is Running with a pc above 255, an address that does not
  exist (R28, R50). The spec excludes such a state and no step leads to one. Safe. -/
  | pcOutOfRange
  deriving DecidableEq, Repr

/-- Why the model gives no meaning. -/
inductive Refusal where
  /-- An instruction without a meaning, by its mnemonic; only `exec`'s arms could raise it, and in
  this model none does. Safe. -/
  | notModelled (mnemonic : String)
  deriving DecidableEq, Repr

/-- The state of the core. -/
structure State where
  /-- the register file `R[0]` to `R[15]` (R20, R22) -/
  regs   : Vector Word 16
  /-- the memory array `M[0x00]` to `M[0xFF]` (R20, R31) -/
  mem    : Memory
  /-- the program counter, a natural number (R20, R28) -/
  pc     : Nat
  /-- the run status (R20, R32) -/
  run    : RunStatus
  /-- the fault record (R20, R33) -/
  fault  : FaultRecord
  /-- the input words the host offers, the next one first (R38, R101; the model's own field, log
  entry 2) -/
  inputs : List Word
  /-- the observable event trace, oldest first (R39, R111); no instruction reads it -/
  trace  : List Event
  deriving DecidableEq, Repr

/-- The fault record at reset (R33): kind 0, the other fields absent. -/
def FaultRecord.reset : FaultRecord := { kind := .noFault, pc := none, value := none }

/-- The state right after reset, before the preload (R39, R260, R261). `inputs` is the model's own
field and is empty (DESIGN CHOICE, log entry 2). -/
def State.reset : State where
  regs   := Vector.replicate 16 0#16
  mem    := []
  pc     := Config.pcReset
  run    := .running
  fault  := FaultRecord.reset
  inputs := []
  trace  := []

/-- What one step answers. -/
abbrev Result := Host.Outcome State Fault Refusal

end Sys2Proof.Machine
end

