-- ==== Sys2Proof/Machine/Operands.lean ====
section
/-! DEFINITION. How an instruction's operands are read as numbers and how a result becomes a word
(R9 to R12, R83 to R85), the exact integer operations of the ALU (R12), and the table of the register
fields each instruction reads and writes (R25). -/

namespace Sys2Proof.Machine

/-- The signed interpretation of a word (R9): values above 32767 less 65536. -/
def signed16 (w : Word) : Int :=
  if w.toNat ≤ 32767 then (w.toNat : Int) else (w.toNat : Int) - 65536

/-- The word of a signed value in `[-32768, 32767]` (R10). It is applied to no other value. -/
def pattern16 (v : Int) : Word :=
  if 0 ≤ v then BitVec.ofNat 16 v.toNat else BitVec.ofNat 16 (v + 65536).toNat

/-- Zero extension of a byte (R11, R83). -/
def zext16 (b : Addr) : Word := b.setWidth 16

/-- `a & b` on integers in two's complement with infinite sign extension (R12). For `m, n ≥ 0` the
negative integer `-n - 1` is the complement of `n`, and `m` AND NOT `n` is `m ^^^ (m &&& n)`. -/
def intAnd : Int → Int → Int
  | .ofNat m, .ofNat n => .ofNat (m &&& n)
  | .ofNat m, .negSucc n => .ofNat (m ^^^ (m &&& n))
  | .negSucc m, .ofNat n => .ofNat (n ^^^ (n &&& m))
  | .negSucc m, .negSucc n => .negSucc (m ||| n)

/-- `a ^ b` on integers in two's complement with infinite sign extension (R12). -/
def intXor : Int → Int → Int
  | .ofNat m, .ofNat n => .ofNat (m ^^^ n)
  | .ofNat m, .negSucc n => .negSucc (m ^^^ n)
  | .negSucc m, .ofNat n => .negSucc (m ^^^ n)
  | .negSucc m, .negSucc n => .ofNat (m ^^^ n)

/-- `a << b = a * 2^b` for `b ≥ 0` (R12). -/
def intShl (a : Int) (b : Nat) : Int := a * ((2 ^ b : Nat) : Int)

/-- `a >> b = floor(a / 2^b)` for `b ≥ 0` (R12): the divisor is positive, so `/` on `Int` is the
floor. -/
def intShr (a : Int) (b : Nat) : Int := a / ((2 ^ b : Nat) : Int)

/-- The indirect address check (R165): a register's value read unsigned, used as an address when it
is at most `0x00FF`, and no address otherwise. -/
def indirectAddr (v : Word) : Option Addr :=
  if v.toNat ≤ Config.topAddr then some (v.setWidth 8) else none

/-- The register the instruction writes through `WriteReg`, as R25 lists it. -/
def regWritten : Instr → Option RegIdx
  | .hlt _ => none
  | .add d _ _ => some d
  | .sub d _ _ => some d
  | .and d _ _ => some d
  | .xor d _ _ => some d
  | .shl d _ _ => some d
  | .shr d _ _ => some d
  | .lda d _ => some d
  | .ld d _ => some d
  | .st _ _ => none
  | .ldi d _ _ => some d
  | .sti _ _ _ => none
  | .bz _ _ => none
  | .bp _ _ => none
  | .jr _ _ => none
  | .jl d _ => some d

/-- The registers the instruction reads, as R25 lists them. -/
def regsRead : Instr → List RegIdx
  | .hlt _ => []
  | .add _ s t => [s, t]
  | .sub _ s t => [s, t]
  | .and _ s t => [s, t]
  | .xor _ s t => [s, t]
  | .shl _ s t => [s, t]
  | .shr _ s t => [s, t]
  | .lda _ _ => []
  | .ld _ _ => []
  | .st d _ => [d]
  | .ldi _ t _ => [t]
  | .sti d t _ => [d, t]
  | .bz d _ => [d]
  | .bp d _ => [d]
  | .jr d _ => [d]
  | .jl _ _ => []

end Sys2Proof.Machine
end

