-- ==== Sys2Proof/Machine/Flags.lean ====
section
/-! DEFINITION. The core has no flags, condition codes or predicates (R34). What stands in their
place are the tests an instruction makes on a value and does not store: the ALU's range validation
(R131), the sign of a shift count (R139) and the conditions of `BZ` and `BP` (R191, R192). -/

namespace Sys2Proof.Machine

/-- The range validation of an exact ALU result (R131): `-32768 <= r <= 32767`. -/
def inSignedRange (r : Int) : Bool := decide (Config.smin ≤ r) && decide (r ≤ Config.smax)

/-- The condition of `BZ` (R191): `signed16(v) = 0`. -/
def isZero (v : Word) : Bool := decide (signed16 v = 0)

/-- The condition of `BP` (R192): `signed16(v) > 0`. -/
def isPositive (v : Word) : Bool := decide (0 < signed16 v)

/-- A shift count the spec gives no result for (R139): `b < 0`. -/
def countNegative (b : Int) : Bool := decide (b < 0)

end Sys2Proof.Machine
end

