-- ==== Sys2Proof/Machine/Ops.lean ====
section
/-! DEFINITION. The named operations over registers, memory, the port and the engine, each written
once: R13's primitives, the pc commit (R106), raising a fatal error (R108), and what the host can do
(R38, R70). -/

namespace Sys2Proof.Machine

/-! ## Memory (R50 to R52) -/

/-- What a cell that is not listed holds: every cell is zero at reset (R21, R260). -/
def Memory.unlisted : Word := 0#16

/-- The content of the cell with key `k`. -/
def Memory.lookup : Memory → Nat → Word
  | [], _ => Memory.unlisted
  | (k', x) :: rest, k => if k' = k then x else Memory.lookup rest k

/-- The list without any entry for key `k`. -/
def Memory.erase (m : Memory) (k : Nat) : Memory := m.filter fun p => p.1 != k

/-- Insert an entry before the first one with a greater key. -/
def Memory.insert : Memory → Nat → Word → Memory
  | [], k, v => [(k, v)]
  | (k', x) :: rest, k, v =>
    if k < k' then (k, v) :: (k', x) :: rest else (k', x) :: Memory.insert rest k v

/-- `M[a]` (R51). Every 8-bit address names a cell (R50, R63), so no read fails (R21). -/
def Memory.read (m : Memory) (a : Addr) : Word := m.lookup a.toNat

/-- `M[a] <- v` (R52), keeping the canonical form: writing what an unlisted cell holds removes the
entry. -/
def Memory.write (m : Memory) (a : Addr) (v : Word) : Memory :=
  if v = Memory.unlisted then m.erase a.toNat else (m.erase a.toNat).insert a.toNat v

/-- The canonical form: addresses strictly rising, all of them in the 256-word address space (R50),
and no entry that holds what an unlisted cell holds. -/
abbrev Memory.wf (m : Memory) : Prop :=
  m.Pairwise (fun p q => p.1 < q.1) ∧ ∀ p ∈ m, p.1 ≤ Config.topAddr ∧ p.2 ≠ Memory.unlisted

/-! ## Registers (R22, R23) -/

/-- `R[i]` (R22): the current content, for every `i`, `0` included. -/
def State.readReg (s : State) (i : RegIdx) : Word := s.regs[i.toNat]'i.isLt

/-- The raw update `x[i] <- v` (R13), used by `writeReg` alone. -/
def State.setReg (s : State) (i : RegIdx) (v : Word) : State :=
  { s with regs := s.regs.set i.toNat v i.isLt }

/-! ## The engine: events, the pc commit, a fatal error -/

/-- `emit e`: append an event to the trace (R56, R111). -/
def State.emit (s : State) (e : Event) : State := { s with trace := s.trace ++ [e] }

/-- Commit and halt test (R106): `pc <- next_pc`, and a pc above 255 halts the run, with no fault
recorded and the pc kept (R28). -/
def State.commit (s : State) (nextPc : Nat) : State :=
  { s with pc := nextPc, run := if Config.topAddr < nextPc then .halted else s.run }

/-- The state a fatal error leaves (R108, R226): Faulted, with the kind, the address of the faulting
instruction and the value recorded; the pc is not advanced and everything else stands. -/
def State.takeFault (s : State) (k : FaultKind) (value : Option Int) : State :=
  { s with run := .faulted, fault := { kind := k, pc := some s.pc, value := value } }

/-- `raise K(info)` (R108): the step ends here, in the state `takeFault` gives. There is no handler
to enter and no return from a fatal error (R226, R228). -/
def raise (s : State) (k : FaultKind) (value : Option Int) : Result := .next (s.takeFault k value)

/-- `WriteReg(i, v)` (R23), the last act of every instruction that has one (R109), and then the
commit of `nextPc` (R106): register 0 is protected, so writing it raises ReservedRegisterWrite and
nothing is committed. -/
def writeReg (s : State) (i : RegIdx) (v : Word) (nextPc : Nat) : Result :=
  if i = 0#4 then raise s .reservedRegisterWrite none else .next ((s.setReg i v).commit nextPc)

/-- The end of every ALU instruction (R131, R132): validate the exact result, then write its word to
`R[d]` and go on at `pc + 1`. -/
def aluWrite (s : State) (d : RegIdx) (r : Int) : Result :=
  if inSignedRange r then writeReg s d (pattern16 r) (s.pc + 1)
  else raise s .arithmeticOverflow (some r)

/-- The common part of `SHL` and `SHR` (R139): a negative count raises ShiftCountNegative before the
shift; otherwise the shift's exact result goes the way of every ALU result. -/
def shiftWrite (s : State) (d : RegIdx) (shift : Int → Nat → Int) (a b : Int) : Result :=
  if countNegative b then raise s .shiftCountNegative (some b) else aluWrite s d (shift a b.toNat)

/-! ## Memory accesses and the port (R51 to R56) -/

/-- `MemRead(a, 1)` (R51): a plain read, also of cell `0xFF` (R54). -/
def State.memRead (s : State) (a : Addr) : Word := s.mem.read a

/-- `MemWrite(a, 1, v)` (R52): store the word; at `0xFF` also emit the output event (R55). -/
def State.memWrite (s : State) (a : Addr) (v : Word) : State :=
  let s' := { s with mem := s.mem.write a v }
  if a = Config.ioAddr then s'.emit (.output v) else s'

/-- `InPort()` (R53): take the next input word the host offers, store it in `M[0xFF]` and record
`In(w)`; `none` while nothing is offered, when the core waits (R101). -/
def State.inPort (s : State) : Option (Word × State) :=
  match s.inputs with
  | [] => none
  | w :: rest =>
    some (w, ({ s with mem := s.mem.write Config.ioAddr w, inputs := rest }).emit (.input w))

/-- The raise of an indirect access whose address does not exist (R165): the value recorded is the
16-bit word, read unsigned (R220). -/
def raiseAddress (s : State) (v : Word) : Result :=
  raise s .addressOutOfRange (some (v.toNat : Int))

/-! ## Fetch (R102) -/

/-- The pc as an address, when it is one (R28, R50). -/
def State.fetchAddr (s : State) : Option Addr :=
  if s.pc ≤ Config.topAddr then some (BitVec.ofNat 8 s.pc) else none

/-- An input request (R101): `w[15:12] = 8` and `w[7:0] = 0xFF`. -/
def isInputRequest (w : Word) : Bool := fieldOp w == 0x8#4 && fieldAddr w == Config.ioAddr

/-! ## What the host can do (R37, R38) -/

/-- The host offers one more input word (R38). -/
def State.offer (s : State) (w : Word) : State := { s with inputs := s.inputs ++ [w] }

/-- The host offers the word it converts an input line into; the conversion is OPEN (D3). -/
def State.offerLine (s : State) (line : String) : State := s.offer (Config.inputDecode line)

/-- The preload (R70, R261): the host sets cells before the first fetch; no event is emitted and
nothing but memory changes. -/
def State.preload (s : State) (image : List (Addr × Word)) : State :=
  { s with mem := image.foldl (fun m p => m.write p.1 p.2) s.mem }

/-- The state a run starts from (R111, R261): reset, the preload applied, and the words the host will
supply. -/
def State.boot (image : List (Addr × Word)) (inputs : List Word) : State :=
  { State.reset.preload image with inputs := inputs }

/-! ## What claims compute with -/

/-- The cell an instruction stores to, computed from the state before it with the same functions its
meaning uses: the direct address of `ST`, the checked indirect address of `STI`, and cell `0xFF` for
the input-port read of `LD Rd, 0xFF` (R53, R162, R164). -/
def storeAddr : Instr → State → Option Addr
  | .hlt _, _ => none
  | .add _ _ _, _ => none
  | .sub _ _ _, _ => none
  | .and _ _ _, _ => none
  | .xor _ _ _, _ => none
  | .shl _ _ _, _ => none
  | .shr _ _ _, _ => none
  | .lda _ _, _ => none
  | .ld _ addr, _ => if addr = Config.ioAddr then some Config.ioAddr else none
  | .st _ addr, _ => some addr
  | .ldi _ _ _, _ => none
  | .sti _ t _, s => indirectAddr (s.readReg t)
  | .bz _ _, _ => none
  | .bp _ _, _ => none
  | .jr _ _, _ => none
  | .jl _ _, _ => none

/-- The word an event carries (R56). -/
def Event.word : Event → Word
  | .input w => w
  | .output w => w

/-- The input words a trace records, in order (R57, R111). -/
def inputsConsumed : List Event → List Word
  | [] => []
  | .input w :: rest => w :: inputsConsumed rest
  | .output _ :: rest => inputsConsumed rest

/-- The state an outcome goes on in, if it does. -/
def nextState : Result → Option State
  | .next t => some t
  | .fault _ => none
  | .refused _ => none

/-- What a run shows the host at its end (R111). -/
structure Observation where
  run   : RunStatus
  fault : FaultRecord
  regs  : Vector Word 16
  mem   : Memory
  pc    : Nat
  trace : List Event
  deriving DecidableEq, Repr

/-- The observation of a state (R111): all of it but the words not yet consumed. -/
def State.observe (s : State) : Observation :=
  { run := s.run, fault := s.fault, regs := s.regs, mem := s.mem, pc := s.pc, trace := s.trace }

/-- The spec's number for a run status (R32, D17). -/
def RunStatus.code : RunStatus → Nat
  | .running => 0
  | .halted => 1
  | .faulted => 2

/-- The spec's number for a fault kind (R220, D7). -/
def FaultKind.code : FaultKind → Nat
  | .noFault => 0
  | .arithmeticOverflow => 1
  | .reservedRegisterWrite => 2
  | .shiftCountNegative => 3
  | .addressOutOfRange => 4

end Sys2Proof.Machine
end

