-- ==== Sys2Proof/Machine/Alu.lean ====
section
/-! DEFINITION. The six ALU instructions, opcodes 1 to 6 (R130 to R140): operand `a` is
`signed16(R[s])` and operand `b` is `signed16(R[t])` (R130, log entry 9), the result is an exact
integer. -/

namespace Sys2Proof.Machine

/-- `ADD Rd, Rs, Rt` (R133). -/
def execAdd (d rs rt : RegIdx) (s : State) : Result :=
  aluWrite s d (signed16 (s.readReg rs) + signed16 (s.readReg rt))

/-- `SUB Rd, Rs, Rt` (R134). -/
def execSub (d rs rt : RegIdx) (s : State) : Result :=
  aluWrite s d (signed16 (s.readReg rs) - signed16 (s.readReg rt))

/-- `AND Rd, Rs, Rt` (R135). -/
def execAnd (d rs rt : RegIdx) (s : State) : Result :=
  aluWrite s d (intAnd (signed16 (s.readReg rs)) (signed16 (s.readReg rt)))

/-- `XOR Rd, Rs, Rt` (R136). -/
def execXor (d rs rt : RegIdx) (s : State) : Result :=
  aluWrite s d (intXor (signed16 (s.readReg rs)) (signed16 (s.readReg rt)))

/-- `SHL Rd, Rs, Rt` (R137, R139): the shift of the SIGNED value, range-checked (log entry 10). -/
def execShl (d rs rt : RegIdx) (s : State) : Result :=
  shiftWrite s d intShl (signed16 (s.readReg rs)) (signed16 (s.readReg rt))

/-- `SHR Rd, Rs, Rt` (R138, R139): the floor of the SIGNED value over `2^b` (log entry 10). -/
def execShr (d rs rt : RegIdx) (s : State) : Result :=
  shiftWrite s d intShr (signed16 (s.readReg rs)) (signed16 (s.readReg rt))

end Sys2Proof.Machine
end

