-- ==== Sys2Proof/Machine/Control.lean ====
section
/-! DEFINITION. Control flow, opcodes 0, C, D, E and F (R190 to R197). A target is set as the next pc
directly, which is what the source's "minus one, then increment" comes to (R197). -/

namespace Sys2Proof.Machine

/-- `HLT` (R190): the run ends; the pc keeps the address of the `HLT` and nothing else changes. -/
def execHlt (s : State) : Result := .next { s with run := .halted }

/-- `BZ Rd, 0xNN` (R191). -/
def execBz (d : RegIdx) (addr : Addr) (s : State) : Result :=
  .next (s.commit (if isZero (s.readReg d) then addr.toNat else s.pc + 1))

/-- `BP Rd, 0xNN` (R192). -/
def execBp (d : RegIdx) (addr : Addr) (s : State) : Result :=
  .next (s.commit (if isPositive (s.readReg d) then addr.toNat else s.pc + 1))

/-- `JR Rd` (R193): one past the register's unsigned value. -/
def execJr (d : RegIdx) (s : State) : Result :=
  .next (s.commit ((s.readReg d).toNat + 1))

/-- `JL Rd, 0xNN` (R194): save the address of the `JL` itself, 8 bits zero-extended, and go to the
target; with `d = 0` the write raises and no jump happens. -/
def execJl (d : RegIdx) (addr : Addr) (s : State) : Result :=
  writeReg s d (zext16 (BitVec.ofNat 8 s.pc)) addr.toNat

end Sys2Proof.Machine
end

