-- ==== Sys2Proof/Machine/Transfer.lean ====
section
/-! DEFINITION. Memory and register transfer, opcodes 7, 8, 9, A and B (R160 to R165). -/

namespace Sys2Proof.Machine

/-- `LDA Rd, 0xNN` (R160): the byte, zero-extended. -/
def execLda (d : RegIdx) (addr : Addr) (s : State) : Result :=
  writeReg s d (zext16 addr) (s.pc + 1)

/-- `LD Rd, 0xNN` (R161): the cell's content, or at `0xFF` a fresh input word. The input is consumed
and stored before the register write is attempted (D12, log entry 12); with no word offered the core
waits (R101). -/
def execLd (d : RegIdx) (addr : Addr) (s : State) : Result :=
  if addr = Config.ioAddr then
    match s.inPort with
    | none => .fault .waiting
    | some (w, s') => writeReg s' d w (s.pc + 1)
  else writeReg s d (s.memRead addr) (s.pc + 1)

/-- `ST Rd, 0xNN` (R162). -/
def execSt (d : RegIdx) (addr : Addr) (s : State) : Result :=
  .next ((s.memWrite addr (s.readReg d)).commit (s.pc + 1))

/-- `LDI Rd, Rt` (R163): a plain read, also at `0xFF` (R54); the ignored field is not read. -/
def execLdi (d rt : RegIdx) (s : State) : Result :=
  match indirectAddr (s.readReg rt) with
  | none => raiseAddress s (s.readReg rt)
  | some a => writeReg s d (s.memRead a) (s.pc + 1)

/-- `STI Rd, Rt` (R164); the ignored field is not read. -/
def execSti (d rt : RegIdx) (s : State) : Result :=
  match indirectAddr (s.readReg rt) with
  | none => raiseAddress s (s.readReg rt)
  | some a => .next ((s.memWrite a (s.readReg d)).commit (s.pc + 1))

end Sys2Proof.Machine
end

