-- ==== Sys2Proof/Machine/Dispatch.lean ====
section
/-! DEFINITION. The dispatch (R104): one arm per constructor, each one call of the instruction's
meaning. -/

namespace Sys2Proof.Machine

/-- The effect of one decoded instruction, the pc commit included (R104 to R108). -/
def exec (i : Instr) (s : State) : Host.Outcome State Fault Refusal :=
  match i with
  | .hlt _ => Sys2Proof.Machine.execHlt s
  | .add d rs rt => Sys2Proof.Machine.execAdd d rs rt s
  | .sub d rs rt => Sys2Proof.Machine.execSub d rs rt s
  | .and d rs rt => Sys2Proof.Machine.execAnd d rs rt s
  | .xor d rs rt => Sys2Proof.Machine.execXor d rs rt s
  | .shl d rs rt => Sys2Proof.Machine.execShl d rs rt s
  | .shr d rs rt => Sys2Proof.Machine.execShr d rs rt s
  | .lda d addr => Sys2Proof.Machine.execLda d addr s
  | .ld d addr => Sys2Proof.Machine.execLd d addr s
  | .st d addr => Sys2Proof.Machine.execSt d addr s
  | .ldi d rt _ => Sys2Proof.Machine.execLdi d rt s
  | .sti d rt _ => Sys2Proof.Machine.execSti d rt s
  | .bz d addr => Sys2Proof.Machine.execBz d addr s
  | .bp d addr => Sys2Proof.Machine.execBp d addr s
  | .jr d _ => Sys2Proof.Machine.execJr d s
  | .jl d addr => Sys2Proof.Machine.execJl d addr s

end Sys2Proof.Machine
end

