-- ==== Sys2Proof/Machine/Step.lean ====
section
/-! DEFINITION. One step of the engine (R100 to R108): the enabling test, the fetch, the decode and
the dispatch. -/

namespace Sys2Proof.Machine

/-- `Step()` (R107). A run that has ended takes no step (R100). While Running, the word at the pc is
fetched by a plain read (R102), decoded (R103) and dispatched (R104); the commit of the next pc is
part of each meaning (R105, R106). -/
def step (s : State) : Host.Outcome State Fault Refusal :=
  match s.run with
  | .halted => .fault .terminal
  | .faulted => .fault .terminal
  | .running =>
    match s.fetchAddr with
    | none => .fault .pcOutOfRange
    | some a => exec (decode (s.memRead a)) s

/-- The state with a word in the cell the pc addresses, as the preload would put it there (R70): the
next step from a Running state fetches exactly that word (log entry 6). -/
def State.withFetchWord (s : State) (nbits w : Nat) : State :=
  { s with mem := s.mem.write (BitVec.ofNat 8 s.pc) (tableWord nbits w) }

end Sys2Proof.Machine
end

