-- ==== Sys2Proof/Machine/Assembly.lean ====
section
/-! DEFINITION. The spec's own assembler notation (R90) and its pseudo-instructions (R91), decision
D10. Nothing in the step reads it. -/

namespace Sys2Proof.Machine

/-- One hex digit, capital. -/
def hexDigit (n : Nat) : Char := if n < 10 then Char.ofNat (48 + n) else Char.ofNat (55 + n)

/-- A register's name, `R0` to `RF` (R90). -/
def regName (i : RegIdx) : String := String.ofList ['R', hexDigit i.toNat]

/-- A byte as the notation writes it, `0xNN` (R90). -/
def byteText (a : Addr) : String :=
  String.ofList ['0', 'x', hexDigit (a.toNat / 16), hexDigit (a.toNat % 16)]

/-- The mnemonic (R86, R90), as spec/opcode_table.json spells it. -/
def mnemonic : Instr → String
  | .hlt _ => "HLT"
  | .add _ _ _ => "ADD"
  | .sub _ _ _ => "SUB"
  | .and _ _ _ => "AND"
  | .xor _ _ _ => "XOR"
  | .shl _ _ _ => "SHL"
  | .shr _ _ _ => "SHR"
  | .lda _ _ => "LDA"
  | .ld _ _ => "LD"
  | .st _ _ => "ST"
  | .ldi _ _ _ => "LDI"
  | .sti _ _ _ => "STI"
  | .bz _ _ => "BZ"
  | .bp _ _ => "BP"
  | .jr _ _ => "JR"
  | .jl _ _ => "JL"

/-- The operands after the mnemonic, by operand form (R90). -/
def operandTexts : Instr → List String
  | .hlt _ => []
  | .add d s t => [regName d, regName s, regName t]
  | .sub d s t => [regName d, regName s, regName t]
  | .and d s t => [regName d, regName s, regName t]
  | .xor d s t => [regName d, regName s, regName t]
  | .shl d s t => [regName d, regName s, regName t]
  | .shr d s t => [regName d, regName s, regName t]
  | .lda d addr => [regName d, byteText addr]
  | .ld d addr => [regName d, byteText addr]
  | .st d addr => [regName d, byteText addr]
  | .ldi d t _ => [regName d, regName t]
  | .sti d t _ => [regName d, regName t]
  | .bz d addr => [regName d, byteText addr]
  | .bp d addr => [regName d, byteText addr]
  | .jr d _ => [regName d]
  | .jl d addr => [regName d, byteText addr]

/-- An instruction in the spec's notation (R90), such as `ADD R3, R1, R2`. -/
def assembly (i : Instr) : String :=
  match operandTexts i with
  | [] => mnemonic i
  | ops => mnemonic i ++ " " ++ ", ".intercalate ops

/-! The pseudo-instructions of R91, each one real instruction. -/

/-- `JMP 0xNN` (R91): the branch on `R0` is always taken. -/
def pseudoJmp (addr : Addr) : Instr := .bz 0#4 addr

/-- `NOP` (R91): `R0` is never positive. -/
def pseudoNop : Instr := .bp 0#4 0x00#8

/-- `MOV Rd, Rs` (R91): adding `R0` adds zero. -/
def pseudoMov (d s : RegIdx) : Instr := .add d s 0#4

/-- `CLR Rd` (R91). -/
def pseudoClr (d : RegIdx) : Instr := .lda d 0x00#8

/-- `IN Rd` (R91): the input port. -/
def pseudoIn (d : RegIdx) : Instr := .ld d Config.ioAddr

/-- `OUT Rd` (R91): the output port. -/
def pseudoOut (d : RegIdx) : Instr := .st d Config.ioAddr

/-- `CALL Rd, 0xNN` (R91). -/
def pseudoCall (d : RegIdx) (addr : Addr) : Instr := .jl d addr

/-- `RET Rd` (R91). -/
def pseudoRet (d : RegIdx) : Instr := .jr d 0#8

end Sys2Proof.Machine
end

