-- ==== Sys2Proof/Safety.lean ====
section
/-! DEFINITION. What claims are stated in: the invariants of the machine and the conditions under
which the engine has a step. -/

namespace Sys2Proof.Machine

/-- The fault record has the fields its kind has (R33, R220): an address inside memory for every
kind but `noFault`, and a value only where R220 gives one, of the sort R220 gives. -/
def FaultRecord.wellShaped (f : FaultRecord) : Prop :=
  match f.kind with
  | .noFault => f.pc = none ∧ f.value = none
  | .arithmeticOverflow =>
    (∃ p, f.pc = some p ∧ p ≤ 255) ∧ ∃ r : Int, f.value = some r ∧ (r < -32768 ∨ 32767 < r)
  | .reservedRegisterWrite => (∃ p, f.pc = some p ∧ p ≤ 255) ∧ f.value = none
  | .shiftCountNegative =>
    (∃ p, f.pc = some p ∧ p ≤ 255) ∧ ∃ b : Int, f.value = some b ∧ -32768 ≤ b ∧ b < 0
  | .addressOutOfRange =>
    (∃ p, f.pc = some p ∧ p ≤ 255) ∧ ∃ v : Int, f.value = some v ∧ 0x00FF < v ∧ v ≤ 0xFFFF

/-- The invariant of the machine: what the spec says of every state a run can be in, and the model's
own canonical form of memory (log entry 1). -/
structure State.Inv (s : State) : Prop where
  /-- memory keeps its canonical form, which is the model's own (DESIGN CHOICE, log entry 1); of the
  spec's, every listed address is inside the space (R50) -/
  memCanonical : s.mem.wf
  /-- `R0` reads zero (R24) -/
  regZero : s.readReg 0#4 = 0#16
  /-- the pc is an address while Running (R28, R30) -/
  pcWhileRunning : s.run = .running → s.pc ≤ 255
  /-- the pc is at most `0x10000` (R28; after an implicit halt by the spec's decision D9, log entry
  13) -/
  pcBound : s.pc ≤ 0x10000
  /-- a fault is recorded exactly when the run is Faulted (R20, R229) -/
  faultRecorded : s.run = .faulted ↔ s.fault.kind ≠ .noFault
  /-- a recorded fault is at the pc, which stays where it was (R108, R226) -/
  faultAtPc : s.run = .faulted → s.fault.pc = some s.pc
  /-- the record has the fields of its kind (R33, R220; its contents are the spec's decision D11, log
  entry 7) -/
  faultShape : s.fault.wellShaped

/-- The port cell holds the word of the last port event, once there has been one (R53, R55): no
access but those two writes cell `0xFF`. -/
def State.PortCellCurrent (s : State) : Prop :=
  ∀ e, s.trace.getLast? = some e → s.memRead Config.ioAddr = e.word

/-- A step is enabled (R101): Running, and the word at the pc is no input request or the host offers
an input word. -/
def State.Enabled (s : State) : Prop :=
  s.run = .running ∧
    (isInputRequest (s.memRead (BitVec.ofNat 8 s.pc)) = false ∨ s.inputs ≠ [])

/-- The frame of an instruction that stores nothing and takes no input: every register but those
listed, every cell, the words offered and the trace are unchanged, and the fault record too unless
the run ended in a fault. -/
def KeepsAllButRegs (changed : List RegIdx) (s t : State) : Prop :=
  (∀ r, r ∉ changed → t.readReg r = s.readReg r) ∧
  (∀ a, t.memRead a = s.memRead a) ∧
  t.inputs = s.inputs ∧ t.trace = s.trace ∧
  (t.run ≠ .faulted → t.fault = s.fault)

/-- The frame of an instruction that may store to one cell, given by an expression over the state
before it: every register but those listed and every other cell are unchanged, and the fault record
too unless the run ended in a fault. -/
def KeepsAllButCell (cell : Option Addr) (changed : List RegIdx) (s t : State) : Prop :=
  (∀ r, r ∉ changed → t.readReg r = s.readReg r) ∧
  (∀ a, cell ≠ some a → t.memRead a = s.memRead a) ∧
  (t.run ≠ .faulted → t.fault = s.fault)

end Sys2Proof.Machine
end

