-- ==== Sys2Proof/Certificates/Slice0/Obligations.lean ====
section
/-! DEFINITION. The statements for the provers: what the spec's rules say the machine does, over
every state and operand. Most are written with the library's own signed reading (`BitVec.toInt`),
arithmetic and shifts on words, not with the model's functions of the same purpose. -/

open Sys2Proof Sys2Proof.Machine

/-! ## Reset and boot -/

/-- R39, R260: every element after reset. The fault record and the trace are the spec's decisions
D11 and D19. -/
def Obligations.ResetLeavesEveryElementAtItsValue : Prop :=
  (∀ i, State.reset.readReg i = 0#16) ∧ (∀ a, State.reset.memRead a = 0#16) ∧
  State.reset.pc = 0x10 ∧ State.reset.run = .running ∧
  State.reset.fault = { kind := .noFault, pc := none, value := none } ∧ State.reset.trace = []

/-- R70 (decision D13): a preload image that names no cell twice sets exactly the cells it names and
changes nothing but memory; no event is emitted, not even for cell `0xFF`. -/
def Obligations.PreloadSetsExactlyTheNamedCells : Prop :=
  ∀ (image : List (Addr × Word)) (s : State), (image.map Prod.fst).Nodup →
    (∀ p ∈ image, (s.preload image).memRead p.1 = p.2) ∧
    (∀ a, a ∉ image.map Prod.fst → (s.preload image).memRead a = s.memRead a) ∧
    (s.preload image).regs = s.regs ∧ (s.preload image).pc = s.pc ∧
    (s.preload image).run = s.run ∧ (s.preload image).fault = s.fault ∧
    (s.preload image).inputs = s.inputs ∧ (s.preload image).trace = s.trace

/-- R261, R262, R264: after the boot the first step runs the word the image puts in cell `0x10`; an
image that leaves the cell empty halts there at once. -/
def Obligations.FirstStepRunsCellSixteen : Prop :=
  ∀ (image : List (Addr × Word)) (inputs : List Word), (image.map Prod.fst).Nodup →
    (∀ w, (0x10#8, w) ∈ image →
      step (State.boot image inputs) = exec (decode w) (State.boot image inputs)) ∧
    (0x10#8 ∉ image.map Prod.fst →
      step (State.boot image inputs) = .next { State.boot image inputs with run := .halted })

/-! ## Encoding -/

/-- Encoding undoes decoding, on every one of the 65536 words. That decoding answers an instruction for
every word is R87; that no bit of a word is lost is the model's choice: an instruction keeps the bits
its encoding ignores (log entry 15), so words such as `0x0ABC`, `0xA4F1` and `0xEA5C` come back whole
where the spec's assembler (R88) would write those bits as zero. -/
def Obligations.EncodeOfDecodeIsTheWord : Prop := ∀ w : Word, encode (decode w) = w

/-- R80, R86: decoding undoes encoding, for every instruction with every field at every value. The
fields include the ignored bits, which an instruction keeps by the model's choice (log entry 15). -/
def Obligations.DecodeOfEncodeIsTheInstruction : Prop := ∀ i : Instr, decode (encode i) = i

/-- R80, R86, R103: which bits of the word each instruction's fields are, for each value of
`w[15:12]`, which alone selects the instruction. The last argument of `HLT`, `LDI`, `STI` and `JR`
holds bits their encoding ignores (R82); that they are kept as a field is the model's choice (log
entry 15). -/
def Obligations.DecodeSplitsTheWordIntoItsFields : Prop :=
  ∀ w : Word,
    let op := w.toNat / 4096
    let d := BitVec.ofNat 4 (w.toNat / 256)
    let s := BitVec.ofNat 4 (w.toNat / 16)
    let t := BitVec.ofNat 4 w.toNat
    let addr := BitVec.ofNat 8 w.toNat
    (op = 0 → decode w = .hlt (BitVec.ofNat 12 w.toNat)) ∧
    (op = 1 → decode w = .add d s t) ∧ (op = 2 → decode w = .sub d s t) ∧
    (op = 3 → decode w = .and d s t) ∧ (op = 4 → decode w = .xor d s t) ∧
    (op = 5 → decode w = .shl d s t) ∧ (op = 6 → decode w = .shr d s t) ∧
    (op = 7 → decode w = .lda d addr) ∧ (op = 8 → decode w = .ld d addr) ∧
    (op = 9 → decode w = .st d addr) ∧ (op = 10 → decode w = .ldi d t s) ∧
    (op = 11 → decode w = .sti d t s) ∧ (op = 12 → decode w = .bz d addr) ∧
    (op = 13 → decode w = .bp d addr) ∧ (op = 14 → decode w = .jr d addr) ∧
    (op = 15 → decode w = .jl d addr)

/-- The example words of R133 to R194, one of each instruction. The ignored bits of four of them are
kept as a field by the model's choice (log entry 15). -/
def Obligations.SpecExampleWordsDecode : Prop :=
  decode 0x0ABC#16 = .hlt 0xABC#12 ∧ decode 0x1312#16 = .add 3#4 1#4 2#4 ∧
  decode 0x2312#16 = .sub 3#4 1#4 2#4 ∧ decode 0x3312#16 = .and 3#4 1#4 2#4 ∧
  decode 0x4312#16 = .xor 3#4 1#4 2#4 ∧ decode 0x5312#16 = .shl 3#4 1#4 2#4 ∧
  decode 0x6312#16 = .shr 3#4 1#4 2#4 ∧ decode 0x7120#16 = .lda 1#4 0x20#8 ∧
  decode 0x8100#16 = .ld 1#4 0x00#8 ∧ decode 0x93FF#16 = .st 3#4 0xFF#8 ∧
  decode 0xA4F1#16 = .ldi 4#4 1#4 0xF#4 ∧ decode 0xB405#16 = .sti 4#4 5#4 0x0#4 ∧
  decode 0xC120#16 = .bz 1#4 0x20#8 ∧ decode 0xD230#16 = .bp 2#4 0x30#8 ∧
  decode 0xEA5C#16 = .jr 10#4 0x5C#8 ∧ decode 0xFA20#16 = .jl 10#4 0x20#8

/-- R88: an ignored field changes nothing. Two words that agree outside the bits their instruction
ignores, which the model keeps as a field (log entry 15), do the same in every state, and every word
up to `0x0FFF` halts. -/
def Obligations.IgnoredFieldsChangeNothing : Prop :=
  (∀ (v w : Word) (s : State), (decode v).canonical = (decode w).canonical →
    exec (decode v) s = exec (decode w) s) ∧
  (∀ (w : Word) (s : State), w.toNat ≤ 0x0FFF → exec (decode w) s = .next { s with run := .halted })

/-! ## The engine -/

/-- R102, R103, R104: while Running, a step fetches the word at the pc by a plain read and runs the
instruction it decodes to; the step adds nothing else. -/
def Obligations.StepRunsTheDecodedWord : Prop :=
  ∀ (s : State) (i : Instr), s.run = .running → s.pc ≤ 255 →
    decode (s.memRead (BitVec.ofNat 8 s.pc)) = i → step s = exec i s

/-- How the host runs one word: with the word stored where the next step fetches, that step runs what
the decoder reads from it (log entry 6). -/
def Obligations.WordPlacedAtThePcRunsNext : Prop :=
  ∀ (s : State) (nbits w : Nat) (i : Instr), s.run = .running → s.pc ≤ 255 →
    decodeTableWord nbits w = some i →
    step (s.withFetchWord nbits w) = exec i (s.withFetchWord nbits w)

/-- R100: the engine starts Running; a step is taken only Running; it enters Halted by `HLT` or by
the pc exceeding 255 and in no other way; it enters Faulted exactly when a fatal error is recorded;
and Halted and Faulted take no further step. -/
def Obligations.EngineStatesChangeOnlyAsTheSpecSays : Prop :=
  State.reset.run = .running ∧
  (∀ s : State, s.run ≠ .running → step s = .fault .terminal) ∧
  (∀ s t : State, s.Inv → step s = .next t →
    s.run = .running ∧
    (t.run = .halted ↔
      (∃ ign, decode (s.memRead (BitVec.ofNat 8 s.pc)) = .hlt ign) ∨ 255 < t.pc) ∧
    (t.run = .faulted ↔ t.fault.kind ≠ .noFault))

/-- R101 (decision D18): at an address of memory, a step answers a next state exactly when the core
is Running and the word at the pc is no input request or an input word is offered; Running and not
enabled, the core waits. -/
def Obligations.StepIsEnabledExactly : Prop :=
  ∀ s : State, s.pc ≤ 255 →
    ((∃ t, step s = .next t) ↔
      s.run = .running ∧
        (¬(∃ d, decode (s.memRead (BitVec.ofNat 8 s.pc)) = .ld d 0xFF#8) ∨ s.inputs ≠ [])) ∧
    (s.run = .running → (∃ d, decode (s.memRead (BitVec.ofNat 8 s.pc)) = .ld d 0xFF#8) →
      s.inputs = [] → step s = .fault .waiting)

/-- R101, R233 (decision D18): a word the host offers ends the wait: the very next step takes it,
stores it in cell `0xFF` and records it. -/
def Obligations.OfferedWordEndsTheWait : Prop :=
  ∀ (s : State) (w : Word), step s = .fault .waiting →
    ∃ t, step (s.offer w) = .next t ∧ t.memRead 0xFF#8 = w ∧ t.inputs = [] ∧
      t.trace = s.trace ++ [.input w]

/-- R106: the commit of the next pc and the halt test: no fault is recorded and nothing else
changes. That the pc keeps the value above 255 is the spec's decision D9 (log entry 13). -/
def Obligations.CommitSetsThePcAndHaltsPastTheTop : Prop :=
  ∀ (s : State) (n : Nat),
    (n ≤ 255 → s.commit n = { s with pc := n }) ∧
    (255 < n → s.commit n = { s with pc := n, run := .halted })

/-- R105: an instruction that neither halts, branches, jumps nor calls goes on at `pc + 1` unless it
raised a fatal error. -/
def Obligations.SequentialInstructionsGoOnAtPcPlusOne : Prop :=
  ∀ (i : Instr) (s t : State), s.run = .running → exec i s = .next t → t.run ≠ .faulted →
    i.opcode.toNat ∈ [1, 2, 3, 4, 5, 6, 7, 8, 9, 10, 11] → t.pc = s.pc + 1

/-! ## Registers and fatal errors -/

/-- R23: `WriteReg`. Register 0 is protected: the write raises ReservedRegisterWrite, with the pc and
no value, and no register changes; any other register takes the word, no other register changes, and
the next pc given is committed with its halt test (R106: `CommitSetsThePcAndHaltsPastTheTop` says what
the commit does). -/
def Obligations.WriteRegProtectsRegisterZero : Prop :=
  ∀ (s : State) (i : RegIdx) (v : Word) (n : Nat),
    (i = 0#4 → writeReg s i v n = .next { s with
      run := .faulted
      fault := { kind := .reservedRegisterWrite, pc := some s.pc, value := none } }) ∧
    (i ≠ 0#4 → writeReg s i v n = .next ((s.setReg i v).commit n) ∧
      ((s.setReg i v).commit n).readReg i = v ∧
      (∀ j, j ≠ i → ((s.setReg i v).commit n).readReg j = s.readReg j))

/-- R24, R222: every instruction that targets register 0 ends the run at its own address, and leaves
register 0 and every other register as they were. -/
def Obligations.WritingRegisterZeroEndsTheRun : Prop :=
  ∀ (i : Instr) (s t : State), regWritten i = some 0#4 → exec i s = .next t →
    t.run = .faulted ∧ t.fault.pc = some s.pc ∧ t.pc = s.pc ∧ t.regs = s.regs

/-- R108, R226 (decision D12 for the port read): a fatal error is precise. The registers and the pc
are those before the instruction, the record holds the instruction's address, and memory, the words
offered and the trace are unchanged, except that `LD R0, 0xFF` keeps the input word it took. -/
def Obligations.FatalErrorsArePrecise : Prop :=
  ∀ (i : Instr) (s t : State), s.run = .running → exec i s = .next t → t.run = .faulted →
    t.regs = s.regs ∧ t.pc = s.pc ∧ t.fault.pc = some s.pc ∧ t.fault.kind ≠ .noFault ∧
    ((i = .ld 0#4 0xFF#8 ∧ ∃ w rest, s.inputs = w :: rest ∧ t.inputs = rest ∧
        t.mem = s.mem.write 0xFF#8 w ∧ t.trace = s.trace ++ [.input w]) ∨
     (i ≠ .ld 0#4 0xFF#8 ∧ t.inputs = s.inputs ∧ t.mem = s.mem ∧ t.trace = s.trace))

/-- R220, R225 (decisions D5 and D6 for the last two kinds): which instruction raises which fatal
error; `HLT`, `ST`, `BZ`, `BP` and `JR` raise none. -/
def Obligations.FatalErrorKindsByInstruction : Prop :=
  ∀ (i : Instr) (s t : State), s.run = .running → exec i s = .next t → t.run = .faulted →
    (t.fault.kind = .arithmeticOverflow →
      ∃ d rs rt, i = .add d rs rt ∨ i = .sub d rs rt ∨ i = .shl d rs rt) ∧
    (t.fault.kind = .reservedRegisterWrite → regWritten i = some 0#4) ∧
    (t.fault.kind = .shiftCountNegative → ∃ d rs rt, i = .shl d rs rt ∨ i = .shr d rs rt) ∧
    (t.fault.kind = .addressOutOfRange → ∃ d rt ign, i = .ldi d rt ign ∨ i = .sti d rt ign) ∧
    i.opcode.toNat ∉ [0, 9, 12, 13, 14]

/-! ## ALU -/

/-- R9, R10: the signed reading is as R9 gives it, and `pattern16` and `signed16` are inverse
bijections between the words and `[-32768, 32767]`. -/
def Obligations.SignedReadingAndPatternAreInverse : Prop :=
  (∀ w : Word, signed16 w = if w.toNat ≤ 32767 then (w.toNat : Int) else (w.toNat : Int) - 65536) ∧
  (∀ w : Word, -32768 ≤ signed16 w ∧ signed16 w ≤ 32767 ∧ pattern16 (signed16 w) = w) ∧
  (∀ v : Int, -32768 ≤ v → v ≤ 32767 → signed16 (pattern16 v) = v ∧
    ((pattern16 v).toNat : Int) = if 0 ≤ v then v else v + 65536)

/-- R131, R132: the end of every ALU instruction. A result outside `[-32768, 32767]` raises
ArithmeticOverflow with that value, whatever `d` is; a result inside it is written to `R[d]`, whose
signed reading it then is, and the next pc stays `pc + 1`; with `d = 0` the write raises
ReservedRegisterWrite. -/
def Obligations.AluResultIsValidatedThenWritten : Prop :=
  ∀ (s : State) (d : RegIdx) (r : Int),
    ((r < -32768 ∨ 32767 < r) →
      aluWrite s d r = .next (s.takeFault .arithmeticOverflow (some r))) ∧
    (-32768 ≤ r → r ≤ 32767 → d = 0#4 →
      aluWrite s d r = .next (s.takeFault .reservedRegisterWrite none)) ∧
    (-32768 ≤ r → r ≤ 32767 → d ≠ 0#4 → ∃ v : Word, v.toInt = r ∧
      aluWrite s d r = .next ((s.setReg d v).commit (s.pc + 1)))

/-- R133: `ADD`. The exact sum of the signed readings, as a word; a sum outside the range raises
ArithmeticOverflow with that sum, and then `d = 0` raises ReservedRegisterWrite. -/
def Obligations.AddWritesTheExactSum : Prop :=
  ∀ (d rs rt : RegIdx) (s : State),
    let r := (s.readReg rs).toInt + (s.readReg rt).toInt
    ((r < -32768 ∨ 32767 < r) →
      exec (.add d rs rt) s = .next (s.takeFault .arithmeticOverflow (some r))) ∧
    (-32768 ≤ r → r ≤ 32767 → d = 0#4 →
      exec (.add d rs rt) s = .next (s.takeFault .reservedRegisterWrite none)) ∧
    (-32768 ≤ r → r ≤ 32767 → d ≠ 0#4 → exec (.add d rs rt) s =
      .next ((s.setReg d (s.readReg rs + s.readReg rt)).commit (s.pc + 1)))

/-- R134: `SUB`. The exact difference `R[s] - R[t]` of the signed readings. The operand order is the
spec's decision D8 (R130, log entry 9). -/
def Obligations.SubWritesTheExactDifference : Prop :=
  ∀ (d rs rt : RegIdx) (s : State),
    let r := (s.readReg rs).toInt - (s.readReg rt).toInt
    ((r < -32768 ∨ 32767 < r) →
      exec (.sub d rs rt) s = .next (s.takeFault .arithmeticOverflow (some r))) ∧
    (-32768 ≤ r → r ≤ 32767 → d = 0#4 →
      exec (.sub d rs rt) s = .next (s.takeFault .reservedRegisterWrite none)) ∧
    (-32768 ≤ r → r ≤ 32767 → d ≠ 0#4 → exec (.sub d rs rt) s =
      .next ((s.setReg d (s.readReg rs - s.readReg rt)).commit (s.pc + 1)))

/-- R135 (the equality with the 16-bit AND is the spec's own inference from R12): `AND` writes the
bitwise AND of the two words, and its one fatal error is `d = 0`. -/
def Obligations.AndWritesTheBitwiseAnd : Prop :=
  ∀ (d rs rt : RegIdx) (s : State),
    (d = 0#4 → exec (.and d rs rt) s = .next (s.takeFault .reservedRegisterWrite none)) ∧
    (d ≠ 0#4 → exec (.and d rs rt) s =
      .next ((s.setReg d (s.readReg rs &&& s.readReg rt)).commit (s.pc + 1)))

/-- R136 (the equality with the 16-bit XOR is the spec's own inference from R12): `XOR` writes the
bitwise XOR of the two words, and its one fatal error is `d = 0`. -/
def Obligations.XorWritesTheBitwiseXor : Prop :=
  ∀ (d rs rt : RegIdx) (s : State),
    (d = 0#4 → exec (.xor d rs rt) s = .next (s.takeFault .reservedRegisterWrite none)) ∧
    (d ≠ 0#4 → exec (.xor d rs rt) s =
      .next ((s.setReg d (s.readReg rs ^^^ s.readReg rt)).commit (s.pc + 1)))

/-- R137, R139: `SHL`. A negative count raises ShiftCountNegative first (decision D5); then the exact
product of the signed reading and `2^b` is range-checked and written. Operand order: decision D8;
shift of the signed value: conflict C2 (log entries 8, 9, 10). That the record of an overflow holds
the exact product as an unbounded integer, for every count, is the model's choice (log entry 7: D11 and
U6, no claim about a program should rest on it). -/
def Obligations.ShlMultipliesOrFaults : Prop :=
  ∀ (d rs rt : RegIdx) (s : State),
    let b := (s.readReg rt).toNat
    let r := (s.readReg rs).toInt * (2 : Int) ^ b
    (0x8000 ≤ b → exec (.shl d rs rt) s =
      .next (s.takeFault .shiftCountNegative (some (s.readReg rt).toInt))) ∧
    (b < 0x8000 → (r < -32768 ∨ 32767 < r) →
      exec (.shl d rs rt) s = .next (s.takeFault .arithmeticOverflow (some r))) ∧
    (b < 0x8000 → -32768 ≤ r → r ≤ 32767 → d = 0#4 →
      exec (.shl d rs rt) s = .next (s.takeFault .reservedRegisterWrite none)) ∧
    (b < 0x8000 → -32768 ≤ r → r ≤ 32767 → d ≠ 0#4 → exec (.shl d rs rt) s =
      .next ((s.setReg d (s.readReg rs <<< b)).commit (s.pc + 1)))

/-- R138, R139: `SHR`. A negative count raises ShiftCountNegative first (decision D5); otherwise an
arithmetic right shift of the word is written, for every count, and its one other fatal error is
`d = 0` (log entries 8, 9, 10). -/
def Obligations.ShrShiftsArithmeticallyOrFaults : Prop :=
  ∀ (d rs rt : RegIdx) (s : State),
    let b := (s.readReg rt).toNat
    (0x8000 ≤ b → exec (.shr d rs rt) s =
      .next (s.takeFault .shiftCountNegative (some (s.readReg rt).toInt))) ∧
    (b < 0x8000 → d = 0#4 →
      exec (.shr d rs rt) s = .next (s.takeFault .reservedRegisterWrite none)) ∧
    (b < 0x8000 → d ≠ 0#4 → exec (.shr d rs rt) s =
      .next ((s.setReg d ((s.readReg rs).sshiftRight b)).commit (s.pc + 1)))

/-! ## Memory and register transfer -/

/-- R160: `LDA` writes the byte zero-extended, never sign-extended; `d = 0` raises. -/
def Obligations.LdaWritesTheZeroExtendedByte : Prop :=
  ∀ (d : RegIdx) (addr : Addr) (s : State),
    (d = 0#4 → exec (.lda d addr) s = .next (s.takeFault .reservedRegisterWrite none)) ∧
    (d ≠ 0#4 → exec (.lda d addr) s =
      .next ((s.setReg d (BitVec.ofNat 16 addr.toNat)).commit (s.pc + 1)))

/-- R161, below the port: `LD` writes the cell's content; `d = 0` raises. -/
def Obligations.LdReadsTheCell : Prop :=
  ∀ (d : RegIdx) (addr : Addr) (s : State), addr ≠ 0xFF#8 →
    (d = 0#4 → exec (.ld d addr) s = .next (s.takeFault .reservedRegisterWrite none)) ∧
    (d ≠ 0#4 → exec (.ld d addr) s =
      .next ((s.setReg d (s.memRead addr)).commit (s.pc + 1)))

/-- R53: `InPort`. With a word offered it answers that word, stores it in cell `0xFF`, records it and
changes nothing else; while none is offered it answers nothing. -/
def Obligations.InPortTakesOneOfferedWord : Prop :=
  ∀ s : State,
    (s.inputs = [] → s.inPort = none) ∧
    (∀ w rest, s.inputs = w :: rest → ∃ t, s.inPort = some (w, t) ∧
      t.memRead 0xFF#8 = w ∧ (∀ a, a ≠ 0xFF#8 → t.memRead a = s.memRead a) ∧
      t.inputs = rest ∧ t.trace = s.trace ++ [.input w] ∧
      t.regs = s.regs ∧ t.pc = s.pc ∧ t.run = s.run ∧ t.fault = s.fault)

/-- R161 at the port (decisions D12 and D18): `LD Rd, 0xFF` waits while no word is offered; it takes
the next word offered, whatever cell `0xFF` held, into `R[d]` and the cell; with `d = 0` the word is
taken and stored first and then the write raises. -/
def Obligations.LdReadsTheInputPort : Prop :=
  ∀ (d : RegIdx) (s : State),
    (s.inputs = [] → exec (.ld d 0xFF#8) s = .fault .waiting) ∧
    (∀ w rest, s.inputs = w :: rest → d ≠ 0#4 → exec (.ld d 0xFF#8) s =
      .next ((({ s with
        mem := s.mem.write 0xFF#8 w
        inputs := rest
        trace := s.trace ++ [.input w] } : State).setReg d w).commit (s.pc + 1))) ∧
    (∀ w rest, s.inputs = w :: rest → d = 0#4 → exec (.ld d 0xFF#8) s =
      .next (({ s with
        mem := s.mem.write 0xFF#8 w
        inputs := rest
        trace := s.trace ++ [.input w] } : State).takeFault .reservedRegisterWrite none))

/-- R162: `ST` stores `R[d]` in the cell and at `0xFF` also emits the word; it never faults, whatever
`d` is. -/
def Obligations.StStoresTheRegister : Prop :=
  ∀ (d : RegIdx) (addr : Addr) (s : State),
    ∃ t, exec (.st d addr) s = .next t ∧
      t.memRead addr = s.readReg d ∧ (∀ b, b ≠ addr → t.memRead b = s.memRead b) ∧
      t.trace = (if addr = 0xFF#8 then s.trace ++ [.output (s.readReg d)] else s.trace) ∧
      t.regs = s.regs ∧ t.inputs = s.inputs ∧ t.fault = s.fault ∧ t.pc = s.pc + 1 ∧
      t.run = (if 255 < s.pc + 1 then .halted else s.run)

/-- R163: `LDI`. An address above `0x00FF` raises AddressOutOfRange with that address, before
anything else (decision D6, log entry 8); otherwise the cell's stored content is written, also at
`0xFF`, with no input requested; then `d = 0` raises. -/
def Obligations.LdiLoadsThroughTheRegister : Prop :=
  ∀ (d rt : RegIdx) (ign : BitVec 4) (s : State),
    let a := (s.readReg rt).toNat
    (0x00FF < a → exec (.ldi d rt ign) s =
      .next (s.takeFault .addressOutOfRange (some (a : Int)))) ∧
    (a ≤ 0x00FF → d = 0#4 → exec (.ldi d rt ign) s =
      .next (s.takeFault .reservedRegisterWrite none)) ∧
    (a ≤ 0x00FF → d ≠ 0#4 → exec (.ldi d rt ign) s =
      .next ((s.setReg d (s.memRead (BitVec.ofNat 8 a))).commit (s.pc + 1)))

/-- R164: `STI`. An address above `0x00FF` raises AddressOutOfRange (decision D6, log entry 8) and
nothing is stored; otherwise `R[d]` is stored in that cell, and at `0xFF` also emitted (N7). -/
def Obligations.StiStoresThroughTheRegister : Prop :=
  ∀ (d rt : RegIdx) (ign : BitVec 4) (s : State),
    let a := (s.readReg rt).toNat
    (0x00FF < a → exec (.sti d rt ign) s =
      .next (s.takeFault .addressOutOfRange (some (a : Int)))) ∧
    (a ≤ 0x00FF → ∃ t, exec (.sti d rt ign) s = .next t ∧
      t.memRead (BitVec.ofNat 8 a) = s.readReg d ∧
      (∀ b, b ≠ BitVec.ofNat 8 a → t.memRead b = s.memRead b) ∧
      t.trace = (if a = 0xFF then s.trace ++ [.output (s.readReg d)] else s.trace) ∧
      t.regs = s.regs ∧ t.inputs = s.inputs ∧ t.fault = s.fault ∧ t.pc = s.pc + 1 ∧
      t.run = (if 255 < s.pc + 1 then .halted else s.run))

/-- R54: no read but `LD Rd, 0xFF` triggers the input port. An instruction that takes an offered word
is that one; in particular `LDI` from `0x00FF` and a fetch from `0xFF` read the stored cell. -/
def Obligations.NoOtherReadTriggersTheInputPort : Prop :=
  (∀ (i : Instr) (s t : State), exec i s = .next t → t.inputs ≠ s.inputs →
    ∃ d, i = .ld d 0xFF#8) ∧
  (∀ (d rt : RegIdx) (ign : BitVec 4) (s : State), s.readReg rt = 0x00FF#16 → d ≠ 0#4 →
    exec (.ldi d rt ign) s = .next ((s.setReg d (s.memRead 0xFF#8)).commit (s.pc + 1))) ∧
  (∀ s : State, s.run = .running → s.pc = 0xFF → step s = exec (decode (s.memRead 0xFF#8)) s)

/-- R55, R61: the trace grows by exactly one event when cell `0xFF` is written by a store or by the
port read, the event carries the word the cell then holds, and it does not grow otherwise. -/
def Obligations.PortEventsAreExactlyTheWritesOfThePortCell : Prop :=
  ∀ (i : Instr) (s t : State), exec i s = .next t →
    (storeAddr i s = some 0xFF#8 → ∃ e, t.trace = s.trace ++ [e] ∧ t.memRead 0xFF#8 = e.word) ∧
    (storeAddr i s ≠ some 0xFF#8 → t.trace = s.trace)

/-! ## Control flow -/

/-- R190: `HLT` ends the run at its own address; nothing else changes. -/
def Obligations.HltHaltsAndChangesNothingElse : Prop :=
  ∀ (ign : BitVec 12) (s : State), exec (.hlt ign) s = .next { s with run := .halted }

/-- R191: `BZ` branches to `addr` exactly when the register's signed value is zero; otherwise it goes
on at `pc + 1`. A taken branch never halts. -/
def Obligations.BzBranchesOnZero : Prop :=
  ∀ (d : RegIdx) (addr : Addr) (s : State),
    ((s.readReg d).toInt = 0 → exec (.bz d addr) s = .next { s with pc := addr.toNat }) ∧
    ((s.readReg d).toInt ≠ 0 → exec (.bz d addr) s = .next (s.commit (s.pc + 1)))

/-- R192: `BP` branches to `addr` exactly when `0x0001 <= R[d] <= 0x7FFF`, that is, when the signed
value is above zero; otherwise it goes on at `pc + 1`. -/
def Obligations.BpBranchesOnPositive : Prop :=
  ∀ (d : RegIdx) (addr : Addr) (s : State),
    (0x0001 ≤ (s.readReg d).toNat → (s.readReg d).toNat ≤ 0x7FFF →
      exec (.bp d addr) s = .next { s with pc := addr.toNat }) ∧
    ((s.readReg d).toNat = 0 ∨ 0x8000 ≤ (s.readReg d).toNat →
      exec (.bp d addr) s = .next (s.commit (s.pc + 1)))

/-- R193: `JR` goes to one past the register's unsigned value; from `0x00FF` up the run halts, and
that the pc keeps that value is the spec's decision D9 (log entry 13). -/
def Obligations.JrLandsOnePastTheRegister : Prop :=
  ∀ (d : RegIdx) (ign : BitVec 8) (s : State),
    ((s.readReg d).toNat < 0x00FF → exec (.jr d ign) s =
      .next { s with pc := (s.readReg d).toNat + 1 }) ∧
    (0x00FF ≤ (s.readReg d).toNat → exec (.jr d ign) s =
      .next { s with pc := (s.readReg d).toNat + 1, run := .halted })

/-- R194: `JL` saves its own address, zero-extended, in `R[d]` and lands exactly on `addr`; with
`d = 0` it raises and no jump happens. -/
def Obligations.JlSavesItsOwnAddress : Prop :=
  ∀ (d : RegIdx) (addr : Addr) (s : State), s.pc ≤ 255 →
    (d = 0#4 → exec (.jl d addr) s = .next (s.takeFault .reservedRegisterWrite none)) ∧
    (d ≠ 0#4 → exec (.jl d addr) s =
      .next { s.setReg d (BitVec.ofNat 16 s.pc) with pc := addr.toNat })

/-- R196: `JL Rd` and, in any later state with `R[d]` unchanged, `JR Rd` return to the instruction
right after the `JL`. -/
def Obligations.CallThenReturnLandsAfterTheCall : Prop :=
  ∀ (d : RegIdx) (addr : Addr) (ign : BitVec 8) (s t u : State), s.pc ≤ 255 → d ≠ 0#4 →
    exec (.jl d addr) s = .next t → u.readReg d = t.readReg d →
    exec (.jr d ign) u = .next (u.commit (s.pc + 1))

/-- R91 (decision D10): in a state where `R0` reads zero (R24, part of the invariant), the
pseudo-instructions `JMP`, `NOP`, `MOV` and `CLR` do what their names say. -/
def Obligations.PseudoInstructionsDoWhatTheySay : Prop :=
  ∀ s : State, s.Inv →
    (∀ addr, exec (pseudoJmp addr) s = .next { s with pc := addr.toNat }) ∧
    exec pseudoNop s = .next (s.commit (s.pc + 1)) ∧
    (∀ d r, d ≠ 0#4 → exec (pseudoMov d r) s =
      .next ((s.setReg d (s.readReg r)).commit (s.pc + 1))) ∧
    (∀ d, d ≠ 0#4 → exec (pseudoClr d) s = .next ((s.setReg d 0#16).commit (s.pc + 1)))

/-! ## Frames -/

/-- R25: the instructions that write a register, but for `LD` from `0xFF` (`FrameOfStores` has that
one): the ALU instructions, `LDA`, `LDI`, `LD` below the port and `JL` change no register but `R[d]`,
no cell, no event and no offered word. -/
def Obligations.FrameOfRegisterWriters : Prop :=
  ∀ (i : Instr) (d rs rt : RegIdx) (addr : Addr) (ign : BitVec 4) (s t : State),
    (i = .add d rs rt ∨ i = .sub d rs rt ∨ i = .and d rs rt ∨ i = .xor d rs rt ∨
      i = .shl d rs rt ∨ i = .shr d rs rt ∨ i = .lda d addr ∨ i = .ldi d rt ign ∨
      (i = .ld d addr ∧ addr ≠ 0xFF#8) ∨ i = .jl d addr) →
    exec i s = .next t → KeepsAllButRegs [d] s t

/-- R25: `HLT`, `BZ`, `BP` and `JR` change no register, no cell, no event, no offered word and no
fault record. -/
def Obligations.FrameOfControlFlow : Prop :=
  ∀ (i : Instr) (d : RegIdx) (addr : Addr) (ign : BitVec 8) (ign' : BitVec 12) (s t : State),
    (i = .hlt ign' ∨ i = .bz d addr ∨ i = .bp d addr ∨ i = .jr d ign) →
    exec i s = .next t → KeepsAllButRegs [] s t ∧ t.fault = s.fault

/-- R25, R53: the instructions that store. `ST` stores to `addr`, `STI` to the checked address in
`R[t]`, `LD Rd, 0xFF` to the port cell and `R[d]`; every other cell and register is unchanged. -/
def Obligations.FrameOfStores : Prop :=
  ∀ (d rt : RegIdx) (addr : Addr) (ign : BitVec 4) (s t : State),
    (exec (.st d addr) s = .next t → KeepsAllButCell (some addr) [] s t) ∧
    (exec (.sti d rt ign) s = .next t →
      KeepsAllButCell (indirectAddr (s.readReg rt)) [] s t) ∧
    (exec (.ld d 0xFF#8) s = .next t → KeepsAllButCell (some 0xFF#8) [d] s t)

/-- R25: a register the instruction does not read has no influence. Writing another word to such a
register beforehand changes the outcome in that register alone, and not even there when the
instruction overwrites it and completes. -/
def Obligations.UnreadRegistersHaveNoInfluence : Prop :=
  ∀ (i : Instr) (s t : State) (r : RegIdx) (v : Word), s.run = .running → r ∉ regsRead i →
    exec i s = .next t →
    (regWritten i = some r → t.run ≠ .faulted → exec i (s.setReg r v) = .next t) ∧
    (regWritten i ≠ some r ∨ t.run = .faulted → exec i (s.setReg r v) = .next (t.setReg r v))

/-! ## The whole machine -/

/-- The invariant holds at reset. Its clause on memory includes the model's own canonical form (log
entry 1). -/
def Obligations.ResetMeetsTheInvariant : Prop := State.reset.Inv ∧ State.reset.PortCellCurrent

/-- From every state that meets the invariant, a step leads to one that does. `R0` reading zero is R24;
the pc's bounds are R28, with the bound after an implicit halt by the spec's decision D9 (log entry
13); the fault record is R33 and R226, with its contents by decision D11 (log entry 7). That the
memory list stays sorted with no zero entry is the model's own canonical form (log entry 1); the spec
gives only that every cell holds a word (R21) at an address of the space (R50). -/
def Obligations.StepKeepsTheInvariant : Prop :=
  ∀ s t : State, s.Inv → step s = .next t → t.Inv

/-- R53, R55: from every state where cell `0xFF` holds the word of the last port event, a step leads
to another: no other access writes that cell. -/
def Obligations.StepKeepsThePortCellCurrent : Prop :=
  ∀ s t : State, s.PortCellCurrent → step s = .next t → t.PortCellCurrent

/-- R57: the words consumed, in the order the trace records them, followed by the words still
offered, are the same list before and after every step: none is lost, repeated or reordered. -/
def Obligations.InputWordsAreConsumedInOrder : Prop :=
  ∀ s t : State, step s = .next t →
    inputsConsumed t.trace ++ t.inputs = inputsConsumed s.trace ++ s.inputs

/-- R20: the trace is output, not state the core reads back. With any earlier events put before it,
every step does the same and appends the same events. -/
def Obligations.TraceIsNeverReadBack : Prop :=
  ∀ (s : State) (earlier : List Event),
    (∀ t, step s = .next t →
      step { s with trace := earlier ++ s.trace } = .next { t with trace := earlier ++ t.trace }) ∧
    (∀ f, step s = .fault f → step { s with trace := earlier ++ s.trace } = .fault f)

/-- R35, R228: the fault record is never read by a program. With any other record, every step does
the same, and leaves that record unless it raises a fatal error itself. -/
def Obligations.FaultRecordIsNeverReadBack : Prop :=
  ∀ (s t : State) (f : FaultRecord), step s = .next t →
    (t.run = .faulted → step { s with fault := f } = .next t) ∧
    (t.run ≠ .faulted → step { s with fault := f } = .next { t with fault := f })

/-- R68: a write to a cell is seen by the next fetch of that cell, for each instruction that writes
one. After an `ST` to the cell the next pc addresses, an `STI` whose checked address is that cell, or
an `LD Rd, 0xFF` at `0xFE` that completes, the very next step runs the word just written, and the run
does go on to it. -/
def Obligations.StoredWordIsFetchedNext : Prop :=
  ∀ (d rt : RegIdx) (addr : Addr) (ign : BitVec 4) (s : State), s.run = .running →
    (s.pc + 1 = addr.toNat →
      ∃ t, exec (.st d addr) s = .next t ∧ step t = exec (decode (s.readReg d)) t) ∧
    (s.pc + 1 = (s.readReg rt).toNat → s.pc + 1 ≤ 255 →
      ∃ t, exec (.sti d rt ign) s = .next t ∧ step t = exec (decode (s.readReg d)) t) ∧
    (∀ w rest, s.pc = 0xFE → s.inputs = w :: rest → d ≠ 0#4 →
      ∃ t, exec (.ld d 0xFF#8) s = .next t ∧ step t = exec (decode w) t)

/-- The canonical form of memory (log entry 1): two memories in it that read the same at every
address are equal. -/
def Obligations.CanonicalMemoriesWithEqualReadsAreEqual : Prop :=
  ∀ m m' : Memory, m.wf → m'.wf → (∀ a, m.read a = m'.read a) → m = m'
end

