-- ==== Sys2Proof/Laws/Encoding.lean ====
section
/-! SUPPORT. The fields of an encoded word: what each field function reads from the pieces the
encoder joins (R80), and decoding from the opcode nibble and the low 12 bits. -/

namespace Sys2Proof

/-- A bit of two patterns joined. -/
theorem getLsbD_joined {m n : Nat} (x : BitVec m) (y : BitVec n) (k : Nat) :
    (x ++ y).getLsbD k = if k < n then y.getLsbD k else x.getLsbD (k - n) := by
  rw [BitVec.getLsbD_append]

theorem extract_high_of_join {m n : Nat} (x : BitVec m) (y : BitVec n) :
    (x ++ y).extractLsb' n m = x := by
  apply BitVec.eq_of_getLsbD_eq
  intro k hk
  simp only [BitVec.getLsbD_extractLsb', hk, decide_true, Bool.true_and]
  rw [getLsbD_joined, if_neg (by omega), Nat.add_sub_cancel_left]

theorem extract_low_of_join {m n : Nat} (x : BitVec m) (y : BitVec n) {j l : Nat}
    (h : j + l ≤ n) : (x ++ y).extractLsb' j l = y.extractLsb' j l := by
  apply BitVec.eq_of_getLsbD_eq
  intro k hk
  simp only [BitVec.getLsbD_extractLsb', hk, decide_true, Bool.true_and]
  rw [getLsbD_joined, if_pos (by omega)]

theorem extract_all {n : Nat} (x : BitVec n) : x.extractLsb' 0 n = x := by
  apply BitVec.eq_of_getLsbD_eq
  intro k hk
  simp [hk]

theorem extract_extract {n : Nat} (x : BitVec n) {j l j' l' : Nat} (h : j' + l' ≤ l) :
    (x.extractLsb' j l).extractLsb' j' l' = x.extractLsb' (j + j') l' := by
  apply BitVec.eq_of_getLsbD_eq
  intro k hk
  have hk' : j' + k < l := by omega
  simp only [BitVec.getLsbD_extractLsb', hk, hk', decide_true, Bool.true_and, Nat.add_assoc]

/-! A word as its opcode nibble joined with its low 12 bits. -/

theorem fieldOp_join (op : BitVec 4) (x : BitVec 12) : fieldOp (op ++ x) = op :=
  extract_high_of_join op x

theorem fieldLow12_join (op : BitVec 4) (x : BitVec 12) : fieldLow12 (op ++ x) = x :=
  (extract_low_of_join op x (Nat.le_refl _)).trans (extract_all x)

theorem fieldD_of_low12 (w : Word) : fieldD w = (fieldLow12 w).extractLsb' 8 4 :=
  (extract_extract w (j := 0) (l := 12) (j' := 8) (l' := 4) (by decide)).symm

theorem fieldS_of_low12 (w : Word) : fieldS w = (fieldLow12 w).extractLsb' 4 4 :=
  (extract_extract w (j := 0) (l := 12) (j' := 4) (l' := 4) (by decide)).symm

theorem fieldT_of_low12 (w : Word) : fieldT w = (fieldLow12 w).extractLsb' 0 4 :=
  (extract_extract w (j := 0) (l := 12) (j' := 0) (l' := 4) (by decide)).symm

theorem fieldAddr_of_low12 (w : Word) : fieldAddr w = (fieldLow12 w).extractLsb' 0 8 :=
  (extract_extract w (j := 0) (l := 12) (j' := 0) (l' := 8) (by decide)).symm

/-! The fields of the operand forms with two and three pieces (R82). -/

theorem three_d (d s t : BitVec 4) : BitVec.extractLsb' 8 4 (d ++ s ++ t : BitVec 12) = d :=
  calc BitVec.extractLsb' 8 4 (d ++ s ++ t : BitVec 12)
      = BitVec.extractLsb' 4 4 (BitVec.extractLsb' 4 8 (d ++ s ++ t : BitVec 12)) :=
        (extract_extract (d ++ s ++ t) (j := 4) (l := 8) (j' := 4) (l' := 4) (by decide)).symm
    _ = BitVec.extractLsb' 4 4 (d ++ s) := congrArg _ (extract_high_of_join (d ++ s) t)
    _ = d := extract_high_of_join d s

theorem three_s (d s t : BitVec 4) : BitVec.extractLsb' 4 4 (d ++ s ++ t : BitVec 12) = s :=
  calc BitVec.extractLsb' 4 4 (d ++ s ++ t : BitVec 12)
      = BitVec.extractLsb' 0 4 (BitVec.extractLsb' 4 8 (d ++ s ++ t : BitVec 12)) :=
        (extract_extract (d ++ s ++ t) (j := 4) (l := 8) (j' := 0) (l' := 4) (by decide)).symm
    _ = BitVec.extractLsb' 0 4 (d ++ s) := congrArg _ (extract_high_of_join (d ++ s) t)
    _ = BitVec.extractLsb' 0 4 s := extract_low_of_join d s (by decide)
    _ = s := extract_all s

theorem three_t (d s t : BitVec 4) : BitVec.extractLsb' 0 4 (d ++ s ++ t : BitVec 12) = t :=
  (extract_low_of_join (d ++ s) t (by decide)).trans (extract_all t)

theorem two_d (d : BitVec 4) (a : BitVec 8) : BitVec.extractLsb' 8 4 (d ++ a : BitVec 12) = d :=
  extract_high_of_join d a

theorem two_a (d : BitVec 4) (a : BitVec 8) : BitVec.extractLsb' 0 8 (d ++ a : BitVec 12) = a :=
  (extract_low_of_join d a (by decide)).trans (extract_all a)

/-! Decoding by opcode. -/

theorem bit_of_fieldOp (w : Word) {k : Nat} (hk : k < 4) :
    w[12 + k]'(by omega) = (fieldOp w)[k] := by
  simp only [fieldOp, BitVec.getElem_extractLsb', BitVec.getLsbD_eq_getElem (show 12 + k < 16 by omega)]

/-- The decoder reads the opcode from the nibble `w[15:12]` alone (R86). -/
theorem decode_by_op (w : Word) : decode w =
    match (fieldOp w)[3], (fieldOp w)[2], (fieldOp w)[1], (fieldOp w)[0] with
    | false, false, false, false => .hlt (fieldLow12 w)
    | false, false, false, true  => .add (fieldD w) (fieldS w) (fieldT w)
    | false, false, true,  false => .sub (fieldD w) (fieldS w) (fieldT w)
    | false, false, true,  true  => .and (fieldD w) (fieldS w) (fieldT w)
    | false, true,  false, false => .xor (fieldD w) (fieldS w) (fieldT w)
    | false, true,  false, true  => .shl (fieldD w) (fieldS w) (fieldT w)
    | false, true,  true,  false => .shr (fieldD w) (fieldS w) (fieldT w)
    | false, true,  true,  true  => .lda (fieldD w) (fieldAddr w)
    | true,  false, false, false => .ld (fieldD w) (fieldAddr w)
    | true,  false, false, true  => .st (fieldD w) (fieldAddr w)
    | true,  false, true,  false => .ldi (fieldD w) (fieldT w) (fieldS w)
    | true,  false, true,  true  => .sti (fieldD w) (fieldT w) (fieldS w)
    | true,  true,  false, false => .bz (fieldD w) (fieldAddr w)
    | true,  true,  false, true  => .bp (fieldD w) (fieldAddr w)
    | true,  true,  true,  false => .jr (fieldD w) (fieldAddr w)
    | true,  true,  true,  true  => .jl (fieldD w) (fieldAddr w) := by
  rw [← bit_of_fieldOp w (k := 3) (by decide), ← bit_of_fieldOp w (k := 2) (by decide),
    ← bit_of_fieldOp w (k := 1) (by decide), ← bit_of_fieldOp w (k := 0) (by decide)]
  rfl

end Sys2Proof
end

