-- ==== Sys2Proof/Laws/State.lean ====
section
/-! SUPPORT. One lemma per field per update of the state. -/

namespace Sys2Proof.Machine

section
variable (s : State) (i : RegIdx) (v w : Word) (a : Addr) (e : Event) (n : Nat)
  (k : FaultKind) (x : Option Int)

@[simp] theorem setReg_mem : (s.setReg i v).mem = s.mem := rfl
@[simp] theorem setReg_pc : (s.setReg i v).pc = s.pc := rfl
@[simp] theorem setReg_run : (s.setReg i v).run = s.run := rfl
@[simp] theorem setReg_fault : (s.setReg i v).fault = s.fault := rfl
@[simp] theorem setReg_inputs : (s.setReg i v).inputs = s.inputs := rfl
@[simp] theorem setReg_trace : (s.setReg i v).trace = s.trace := rfl
@[simp] theorem setReg_memRead : (s.setReg i v).memRead a = s.memRead a := rfl

@[simp] theorem emit_regs : (s.emit e).regs = s.regs := rfl
@[simp] theorem emit_mem : (s.emit e).mem = s.mem := rfl
@[simp] theorem emit_pc : (s.emit e).pc = s.pc := rfl
@[simp] theorem emit_run : (s.emit e).run = s.run := rfl
@[simp] theorem emit_fault : (s.emit e).fault = s.fault := rfl
@[simp] theorem emit_inputs : (s.emit e).inputs = s.inputs := rfl
@[simp] theorem emit_trace : (s.emit e).trace = s.trace ++ [e] := rfl
@[simp] theorem emit_readReg : (s.emit e).readReg i = s.readReg i := rfl
@[simp] theorem emit_memRead : (s.emit e).memRead a = s.memRead a := rfl

@[simp] theorem commit_regs : (s.commit n).regs = s.regs := rfl
@[simp] theorem commit_mem : (s.commit n).mem = s.mem := rfl
@[simp] theorem commit_pc : (s.commit n).pc = n := rfl
@[simp] theorem commit_run :
    (s.commit n).run = if Config.topAddr < n then .halted else s.run := rfl
@[simp] theorem commit_fault : (s.commit n).fault = s.fault := rfl
@[simp] theorem commit_inputs : (s.commit n).inputs = s.inputs := rfl
@[simp] theorem commit_trace : (s.commit n).trace = s.trace := rfl
@[simp] theorem commit_readReg : (s.commit n).readReg i = s.readReg i := rfl
@[simp] theorem commit_memRead : (s.commit n).memRead a = s.memRead a := rfl

@[simp] theorem takeFault_regs : (s.takeFault k x).regs = s.regs := rfl
@[simp] theorem takeFault_mem : (s.takeFault k x).mem = s.mem := rfl
@[simp] theorem takeFault_pc : (s.takeFault k x).pc = s.pc := rfl
@[simp] theorem takeFault_run : (s.takeFault k x).run = .faulted := rfl
@[simp] theorem takeFault_fault :
    (s.takeFault k x).fault = { kind := k, pc := some s.pc, value := x } := rfl
@[simp] theorem takeFault_inputs : (s.takeFault k x).inputs = s.inputs := rfl
@[simp] theorem takeFault_trace : (s.takeFault k x).trace = s.trace := rfl
@[simp] theorem takeFault_readReg : (s.takeFault k x).readReg i = s.readReg i := rfl
@[simp] theorem takeFault_memRead : (s.takeFault k x).memRead a = s.memRead a := rfl

theorem memWrite_eq : s.memWrite a v = { s with
    mem := s.mem.write a v
    trace := if a = Config.ioAddr then s.trace ++ [.output v] else s.trace } := by
  unfold State.memWrite State.emit; split <;> rfl

@[simp] theorem memWrite_regs : (s.memWrite a v).regs = s.regs := by rw [memWrite_eq]
@[simp] theorem memWrite_mem : (s.memWrite a v).mem = s.mem.write a v := by rw [memWrite_eq]
@[simp] theorem memWrite_pc : (s.memWrite a v).pc = s.pc := by rw [memWrite_eq]
@[simp] theorem memWrite_run : (s.memWrite a v).run = s.run := by rw [memWrite_eq]
@[simp] theorem memWrite_fault : (s.memWrite a v).fault = s.fault := by rw [memWrite_eq]
@[simp] theorem memWrite_inputs : (s.memWrite a v).inputs = s.inputs := by rw [memWrite_eq]
@[simp] theorem memWrite_trace : (s.memWrite a v).trace =
    if a = Config.ioAddr then s.trace ++ [.output v] else s.trace := by rw [memWrite_eq]
@[simp] theorem memWrite_readReg : (s.memWrite a v).readReg i = s.readReg i := by
  rw [memWrite_eq]; rfl

@[simp] theorem offer_inputs : (s.offer w).inputs = s.inputs ++ [w] := rfl
@[simp] theorem offer_run : (s.offer w).run = s.run := rfl
@[simp] theorem offer_pc : (s.offer w).pc = s.pc := rfl
@[simp] theorem offer_memRead : (s.offer w).memRead a = s.memRead a := rfl
@[simp] theorem offer_readReg : (s.offer w).readReg i = s.readReg i := rfl

end

/-! Reading a register after a write (R22, R23). -/

@[simp] theorem readReg_setReg_same (s : State) (i : RegIdx) (v : Word) :
    (s.setReg i v).readReg i = v := by
  simp [State.readReg, State.setReg]

theorem readReg_setReg_other (s : State) {i j : RegIdx} (v : Word) (h : j ≠ i) :
    (s.setReg i v).readReg j = s.readReg j := by
  have : i.toNat ≠ j.toNat := fun e => h (BitVec.eq_of_toNat_eq e.symm)
  simp [State.readReg, State.setReg, Vector.getElem_set_ne, this]

theorem readReg_setReg (s : State) (i j : RegIdx) (v : Word) :
    (s.setReg i v).readReg j = if j = i then v else s.readReg j := by
  split
  · next h => rw [h, readReg_setReg_same]
  · next h => exact readReg_setReg_other s v h

end Sys2Proof.Machine
end

