-- ==== Sys2Proof/Laws/Memory.lean ====
section
/-! SUPPORT. The laws of memory: a read after a write, and the canonical form every operation keeps. -/

namespace Sys2Proof.Machine

theorem lookup_erase_same (m : Memory) (k : Nat) : (m.erase k).lookup k = Memory.unlisted := by
  induction m with
  | nil => rfl
  | cons p rest ih =>
    obtain ⟨k', x⟩ := p
    by_cases h : k' = k
    · simpa [Memory.erase, h] using ih
    · simpa [Memory.erase, h, Memory.lookup] using ih

theorem lookup_erase_other (m : Memory) {k j : Nat} (h : j ≠ k) :
    (m.erase k).lookup j = m.lookup j := by
  induction m with
  | nil => rfl
  | cons p rest ih =>
    obtain ⟨k', x⟩ := p
    by_cases hk : k' = k
    · have : k' ≠ j := fun e => h (e.symm.trans hk)
      simpa [Memory.erase, hk, Memory.lookup, Ne.symm h] using ih
    · simp only [Memory.erase] at ih
      simp [Memory.erase, hk, Memory.lookup, ih]

theorem lookup_insert_same (m : Memory) (k : Nat) (v : Word) (h : ∀ p ∈ m, p.1 ≠ k) :
    (m.insert k v).lookup k = v := by
  induction m with
  | nil => simp [Memory.insert, Memory.lookup]
  | cons p rest ih =>
    obtain ⟨k', x⟩ := p
    have hk : k' ≠ k := h _ List.mem_cons_self
    by_cases hlt : k < k'
    · simp [Memory.insert, hlt, Memory.lookup]
    · simpa [Memory.insert, hlt, Memory.lookup, hk] using
        ih fun q hq => h q (List.mem_cons_of_mem _ hq)

theorem lookup_insert_other (m : Memory) {k j : Nat} (v : Word) (h : j ≠ k) :
    (m.insert k v).lookup j = m.lookup j := by
  induction m with
  | nil => simp [Memory.insert, Memory.lookup, Ne.symm h]
  | cons p rest ih =>
    obtain ⟨k', x⟩ := p
    by_cases hlt : k < k'
    · simp [Memory.insert, hlt, Memory.lookup, Ne.symm h]
    · simp [Memory.insert, hlt, Memory.lookup, ih]

theorem mem_erase {m : Memory} {k : Nat} {p : Nat × Word} :
    p ∈ m.erase k ↔ p ∈ m ∧ p.1 ≠ k := by
  simp [Memory.erase]

theorem mem_insert {m : Memory} {k : Nat} {v : Word} {p : Nat × Word} :
    p ∈ m.insert k v ↔ p = (k, v) ∨ p ∈ m := by
  induction m with
  | nil => simp [Memory.insert]
  | cons q rest ih =>
    obtain ⟨k', x⟩ := q
    by_cases hlt : k < k'
    · simp [Memory.insert, hlt]
    · simp [Memory.insert, hlt, ih, or_left_comm]

/-- A read after a write to the same cell gives the word written (R52, R65). -/
@[simp] theorem read_write_same (m : Memory) (a : Addr) (v : Word) : (m.write a v).read a = v := by
  by_cases h : v = Memory.unlisted
  · simp [Memory.write, Memory.read, h, lookup_erase_same]
  · simpa [Memory.write, Memory.read, h] using
      lookup_insert_same _ _ v fun p hp => (mem_erase.mp hp).2

/-- A write leaves every other cell as it was (R52, R61). -/
theorem read_write_other (m : Memory) {a b : Addr} (v : Word) (h : b ≠ a) :
    (m.write a v).read b = m.read b := by
  have hne : b.toNat ≠ a.toNat := fun e => h (BitVec.eq_of_toNat_eq e)
  by_cases hv : v = Memory.unlisted
  · simp [Memory.write, Memory.read, hv, lookup_erase_other _ hne]
  · simp [Memory.write, Memory.read, hv, lookup_insert_other _ _ hne, lookup_erase_other _ hne]

theorem read_write (m : Memory) (a b : Addr) (v : Word) :
    (m.write a v).read b = if b = a then v else m.read b := by
  split
  · next h => rw [h, read_write_same]
  · next h => exact read_write_other m v h

/-! The canonical form. -/

theorem wf_empty : Memory.wf [] := by simp [Memory.wf]

theorem wf_erase {m : Memory} (h : m.wf) (k : Nat) : (m.erase k).wf :=
  ⟨h.1.filter _, fun p hp => h.2 p (mem_erase.mp hp).1⟩

theorem pairwise_insert {m : Memory} {k : Nat} {v : Word}
    (h : m.Pairwise fun p q => p.1 < q.1) (hk : ∀ p ∈ m, p.1 ≠ k) :
    (m.insert k v).Pairwise fun p q => p.1 < q.1 := by
  induction m with
  | nil => simp [Memory.insert]
  | cons q rest ih =>
    obtain ⟨k', x⟩ := q
    obtain ⟨hq, hrest⟩ := List.pairwise_cons.mp h
    have hne : k' ≠ k := hk _ List.mem_cons_self
    by_cases hlt : k < k'
    · simp only [Memory.insert, hlt, if_true]
      refine List.pairwise_cons.mpr ⟨fun p hp => ?_, h⟩
      rcases List.mem_cons.mp hp with rfl | hp
      · exact hlt
      · exact Nat.lt_trans hlt (hq p hp)
    · simp only [Memory.insert, hlt, if_false]
      refine List.pairwise_cons.mpr
        ⟨fun p hp => ?_, ih hrest fun p hp => hk p (List.mem_cons_of_mem _ hp)⟩
      rcases mem_insert.mp hp with rfl | hp
      · exact Nat.lt_of_le_of_ne (Nat.le_of_not_lt hlt) hne
      · exact hq p hp

/-- Every write keeps the canonical form. -/
theorem wf_write {m : Memory} (h : m.wf) (a : Addr) (v : Word) : (m.write a v).wf := by
  by_cases hv : v = Memory.unlisted
  · simpa [Memory.write, hv] using wf_erase h a.toNat
  · have he := wf_erase h a.toNat
    simp only [Memory.write, hv, if_false]
    refine ⟨pairwise_insert he.1 fun p hp => (mem_erase.mp hp).2, fun p hp => ?_⟩
    rcases mem_insert.mp hp with rfl | hp
    · exact ⟨Nat.le_of_lt_succ a.isLt, hv⟩
    · exact he.2 p hp

/-! The same, through the state. -/

@[simp] theorem memRead_memWrite_same (s : State) (a : Addr) (v : Word) :
    (s.memWrite a v).memRead a = v := by
  simp [State.memRead]

theorem memRead_memWrite_other (s : State) {a b : Addr} (v : Word) (h : b ≠ a) :
    (s.memWrite a v).memRead b = s.memRead b := by
  simp [State.memRead, read_write_other _ _ h]

end Sys2Proof.Machine
end

