-- ==== Sys2Proof/Laws/Numbers.lean ====
section
/-! SUPPORT. The spec lemma of each number function of Machine/Operands.lean and Machine/Flags.lean:
what it computes, in the library's own terms. -/

namespace Sys2Proof.Machine

/-- R9 is the library's signed reading. -/
@[simp] theorem signed16_eq_toInt (w : Word) : signed16 w = w.toInt := by
  have := w.isLt
  unfold signed16
  rw [BitVec.toInt_eq_toNat_cond]
  split <;> split <;> omega

theorem toInt_range (w : Word) : -32768 ≤ w.toInt ∧ w.toInt ≤ 32767 := by
  have := w.isLt
  rw [BitVec.toInt_eq_toNat_cond]
  split <;> omega

/-- R10 is the library's conversion, inside the range it is applied to. -/
theorem pattern16_eq_ofInt {v : Int} (h : -32768 ≤ v ∧ v ≤ 32767) :
    pattern16 v = BitVec.ofInt 16 v := by
  apply BitVec.eq_of_toNat_eq
  unfold pattern16
  split
  · simp only [BitVec.toNat_ofNat, BitVec.toNat_ofInt]; omega
  · simp only [BitVec.toNat_ofNat, BitVec.toNat_ofInt]; omega

/-- `pattern16` undoes the signed reading (R10). -/
@[simp] theorem pattern16_toInt (w : Word) : pattern16 w.toInt = w := by
  rw [pattern16_eq_ofInt (toInt_range w), BitVec.ofInt_toInt]

@[simp] theorem inSignedRange_iff (r : Int) :
    inSignedRange r = true ↔ -32768 ≤ r ∧ r ≤ 32767 := by
  simp only [inSignedRange, Bool.and_eq_true, decide_eq_true_eq]; exact Iff.rfl

@[simp] theorem inSignedRange_eq_false_iff (r : Int) :
    inSignedRange r = false ↔ ¬(-32768 ≤ r ∧ r ≤ 32767) := by
  rw [← inSignedRange_iff, Bool.not_eq_true]

@[simp] theorem countNegative_iff (b : Int) : countNegative b = true ↔ b < 0 := by
  simp [countNegative]

@[simp] theorem isZero_iff (v : Word) : isZero v = true ↔ v = 0#16 := by
  simp [isZero, ← BitVec.toInt_inj]

@[simp] theorem isPositive_iff (v : Word) : isPositive v = true ↔ 0 < v.toInt := by
  simp [isPositive]

/-- The indirect address check (R165), both ways. -/
theorem indirectAddr_eq_some_iff {v : Word} {a : Addr} :
    indirectAddr v = some a ↔ v.toNat = a.toNat := by
  have := a.isLt
  unfold indirectAddr
  constructor
  · intro h
    split at h
    · next hv => cases h; simp [Config.topAddr] at hv ⊢; omega
    · cases h
  · intro h
    rw [if_pos (by rw [h, Config.topAddr]; omega)]
    congr 1
    apply BitVec.eq_of_toNat_eq
    rw [BitVec.toNat_setWidth, h]
    exact Nat.mod_eq_of_lt a.isLt

theorem indirectAddr_eq_none_iff {v : Word} : indirectAddr v = none ↔ 0x00FF < v.toNat := by
  unfold indirectAddr
  split <;> simp_all [Config.topAddr]

/-! The integer operations of R12 against the library's operations on words. -/

theorem toInt_of_msb_false {w : Word} (h : w.msb = false) : w.toInt = Int.ofNat w.toNat :=
  BitVec.toInt_eq_toNat_of_msb h

theorem toInt_of_msb_true {w : Word} (h : w.msb = true) : w.toInt = Int.negSucc (~~~w).toNat := by
  have := w.isLt
  have hc := BitVec.toInt_eq_msb_cond w
  rw [h, if_pos rfl] at hc
  rw [hc, BitVec.toNat_not, Int.negSucc_eq]
  omega

/-- R135: the integer AND of two signed readings is the signed reading of the words' AND. -/
theorem intAnd_toInt (a b : Word) : intAnd a.toInt b.toInt = (a &&& b).toInt := by
  cases ha : a.msb <;> cases hb : b.msb
  · rw [toInt_of_msb_false ha, toInt_of_msb_false hb,
      toInt_of_msb_false (by rw [BitVec.msb_and, ha, hb]; rfl)]
    rfl
  · rw [toInt_of_msb_false ha, toInt_of_msb_true hb,
      toInt_of_msb_false (by rw [BitVec.msb_and, ha, hb]; rfl)]
    simp only [intAnd, ← BitVec.toNat_and, ← BitVec.toNat_xor]
    congr 2
    ext k hk
    cases h1 : a[k] <;> cases h2 : b[k] <;> simp [h1, h2]
  · rw [toInt_of_msb_true ha, toInt_of_msb_false hb,
      toInt_of_msb_false (by rw [BitVec.msb_and, ha, hb]; rfl)]
    simp only [intAnd, ← BitVec.toNat_and, ← BitVec.toNat_xor]
    congr 2
    ext k hk
    cases h1 : a[k] <;> cases h2 : b[k] <;> simp [h1, h2]
  · rw [toInt_of_msb_true ha, toInt_of_msb_true hb,
      toInt_of_msb_true (by rw [BitVec.msb_and, ha, hb]; rfl)]
    simp only [intAnd, ← BitVec.toNat_or]
    congr 2
    ext k hk
    cases h1 : a[k] <;> cases h2 : b[k] <;> simp [h1, h2]

/-- R136: the integer XOR of two signed readings is the signed reading of the words' XOR. -/
theorem intXor_toInt (a b : Word) : intXor a.toInt b.toInt = (a ^^^ b).toInt := by
  cases ha : a.msb <;> cases hb : b.msb
  · rw [toInt_of_msb_false ha, toInt_of_msb_false hb,
      toInt_of_msb_false (by rw [BitVec.msb_xor, ha, hb]; rfl)]
    rfl
  · rw [toInt_of_msb_false ha, toInt_of_msb_true hb,
      toInt_of_msb_true (by rw [BitVec.msb_xor, ha, hb]; rfl)]
    simp only [intXor, ← BitVec.toNat_xor]
    congr 2
    ext k hk
    cases h1 : a[k] <;> cases h2 : b[k] <;> simp [h1, h2]
  · rw [toInt_of_msb_true ha, toInt_of_msb_false hb,
      toInt_of_msb_true (by rw [BitVec.msb_xor, ha, hb]; rfl)]
    simp only [intXor, ← BitVec.toNat_xor]
    congr 2
    ext k hk
    cases h1 : a[k] <;> cases h2 : b[k] <;> simp [h1, h2]
  · rw [toInt_of_msb_true ha, toInt_of_msb_true hb,
      toInt_of_msb_false (by rw [BitVec.msb_xor, ha, hb]; rfl)]
    simp only [intXor, ← BitVec.toNat_xor]
    congr 2
    ext k hk
    cases h1 : a[k] <;> cases h2 : b[k] <;> simp [h1, h2]

/-- R138: the floor of a signed reading over `2^n` is the signed reading of the arithmetic shift. -/
theorem intShr_toInt (a : Word) (n : Nat) : intShr a.toInt n = (a.sshiftRight n).toInt := by
  rw [BitVec.toInt_sshiftRight, Int.shiftRight_eq_div_pow]; rfl

/-- R137: when it fits, the product of a signed reading and `2^n` is the word shifted left. -/
theorem pattern16_intShl (a : Word) (n : Nat)
    (h : -32768 ≤ intShl a.toInt n ∧ intShl a.toInt n ≤ 32767) :
    pattern16 (intShl a.toInt n) = a <<< n := by
  rw [pattern16_eq_ofInt h, intShl, BitVec.ofInt_mul, BitVec.ofInt_toInt,
    BitVec.shiftLeft_eq_mul_twoPow]
  congr 1
  apply BitVec.eq_of_toNat_eq
  rw [BitVec.ofInt_natCast, BitVec.toNat_ofNat, BitVec.toNat_twoPow]

end Sys2Proof.Machine
end

