-- ==== Sys2Proof/Laws/Ops.lean ====
section
/-! SUPPORT. One lemma per shared operation saying everything it can do, and the inversion of `exec`
and `step` that invariants are derived from. -/

namespace Sys2Proof.Machine

theorem writeReg_zero (s : State) (v : Word) (n : Nat) :
    writeReg s 0#4 v n = .next (s.takeFault .reservedRegisterWrite none) := rfl

theorem writeReg_ne_zero (s : State) {i : RegIdx} (v : Word) (n : Nat) (h : i ≠ 0#4) :
    writeReg s i v n = .next ((s.setReg i v).commit n) := by
  simp [writeReg, h]

theorem writeReg_cases {s t : State} {i : RegIdx} {v : Word} {n : Nat}
    (h : writeReg s i v n = .next t) :
    (i = 0#4 ∧ t = s.takeFault .reservedRegisterWrite none) ∨
    (i ≠ 0#4 ∧ t = (s.setReg i v).commit n) := by
  by_cases hi : i = 0#4
  · left; subst hi; rw [writeReg_zero] at h; cases h; exact ⟨rfl, rfl⟩
  · right; rw [writeReg_ne_zero s v n hi] at h; cases h; exact ⟨hi, rfl⟩

theorem aluWrite_cases {s t : State} {d : RegIdx} {r : Int} (h : aluWrite s d r = .next t) :
    (¬(-32768 ≤ r ∧ r ≤ 32767) ∧ t = s.takeFault .arithmeticOverflow (some r)) ∨
    ((-32768 ≤ r ∧ r ≤ 32767) ∧ d = 0#4 ∧ t = s.takeFault .reservedRegisterWrite none) ∨
    ((-32768 ≤ r ∧ r ≤ 32767) ∧ d ≠ 0#4 ∧
      t = (s.setReg d (pattern16 r)).commit (s.pc + 1)) := by
  unfold aluWrite at h
  split at h
  · next hr =>
    have hr := (inSignedRange_iff r).mp hr
    rcases writeReg_cases h with ⟨hd, ht⟩ | ⟨hd, ht⟩
    · exact .inr (.inl ⟨hr, hd, ht⟩)
    · exact .inr (.inr ⟨hr, hd, ht⟩)
  · next hr =>
    cases h
    exact .inl ⟨fun hc => hr ((inSignedRange_iff r).mpr hc), rfl⟩

theorem shiftWrite_cases {s t : State} {d : RegIdx} {f : Int → Nat → Int} {a b : Int}
    (h : shiftWrite s d f a b = .next t) :
    (b < 0 ∧ t = s.takeFault .shiftCountNegative (some b)) ∨
    (0 ≤ b ∧ aluWrite s d (f a b.toNat) = .next t) := by
  unfold shiftWrite at h
  split at h
  · next hb => cases h; exact .inl ⟨(countNegative_iff b).mp hb, rfl⟩
  · next hb => exact .inr ⟨not_lt.mp fun hc => hb ((countNegative_iff b).mpr hc), h⟩

theorem inPort_cases {s s' : State} {w : Word} (h : s.inPort = some (w, s')) :
    ∃ rest, s.inputs = w :: rest ∧
      s' = { s with mem := s.mem.write Config.ioAddr w, inputs := rest
                    trace := s.trace ++ [.input w] } := by
  unfold State.inPort at h
  split at h
  · cases h
  · next w' rest hin => cases h; exact ⟨rest, hin, rfl⟩

theorem inPort_eq_none_iff {s : State} : s.inPort = none ↔ s.inputs = [] := by
  unfold State.inPort; split <;> simp_all

/-- The cause a raised kind has (R220, R33): what the value recorded with it is. -/
def RaisedValue (k : FaultKind) (x : Option Int) : Prop :=
  (k = .arithmeticOverflow ∧ ∃ r : Int, x = some r ∧ ¬(-32768 ≤ r ∧ r ≤ 32767)) ∨
  (k = .reservedRegisterWrite ∧ x = none) ∨
  (k = .shiftCountNegative ∧ ∃ b : Int, x = some b ∧ -32768 ≤ b ∧ b < 0) ∨
  (k = .addressOutOfRange ∧ ∃ v : Int, x = some v ∧ 0x00FF < v ∧ v ≤ 0xFFFF)

/-- Which instruction may raise which kind (R220, R225). -/
def MayRaise (i : Instr) : FaultKind → Prop
  | .noFault => False
  | .arithmeticOverflow => i.opcode.toNat ∈ [1, 2, 3, 4, 5, 6]
  | .reservedRegisterWrite => regWritten i = some 0#4
  | .shiftCountNegative => i.opcode.toNat ∈ [5, 6]
  | .addressOutOfRange => i.opcode.toNat ∈ [10, 11]

/-- What an instruction can leave, apart from the port read of `LD Rd, 0xFF`: the run halted; a
fatal error raised on the unchanged state; a register written; a cell written; or the pc alone. -/
inductive PlainEffect (i : Instr) (s : State) : State → Prop where
  | halts (ign : BitVec 12) (hi : i = .hlt ign) : PlainEffect i s { s with run := .halted }
  | raises (k : FaultKind) (x : Option Int) (hx : RaisedValue k x) (hi : MayRaise i k) :
      PlainEffect i s (s.takeFault k x)
  | writes (d : RegIdx) (v : Word) (n : Nat) (hd : d ≠ 0#4) (hi : regWritten i = some d)
      (hn : n ≤ s.pc + 1 ∨ n ≤ 255) : PlainEffect i s ((s.setReg d v).commit n)
  | stores (a : Addr) (v : Word) (hi : storeAddr i s = some a) (hw : regWritten i = none) :
      PlainEffect i s ((s.memWrite a v).commit (s.pc + 1))
  | moves (n : Nat) (hi : i.opcode.toNat ∈ [12, 13, 14]) (hn : n ≤ s.pc + 1 ∨ n ≤ 0x10000) :
      PlainEffect i s (s.commit n)

theorem plainEffect_of_writeReg {i : Instr} {s t : State} {d : RegIdx} {v : Word} {n : Nat}
    (hi : regWritten i = some d) (hn : n ≤ s.pc + 1 ∨ n ≤ 255)
    (h : writeReg s d v n = .next t) : PlainEffect i s t := by
  rcases writeReg_cases h with ⟨rfl, rfl⟩ | ⟨hd, rfl⟩
  · exact .raises _ _ (.inr (.inl ⟨rfl, rfl⟩)) hi
  · exact .writes d v n hd hi hn

theorem plainEffect_of_aluWrite {i : Instr} {s t : State} {d : RegIdx} {r : Int}
    (hi : regWritten i = some d) (ho : i.opcode.toNat ∈ [1, 2, 3, 4, 5, 6])
    (h : aluWrite s d r = .next t) : PlainEffect i s t := by
  rcases aluWrite_cases h with ⟨hr, rfl⟩ | ⟨_, rfl, rfl⟩ | ⟨_, hd, rfl⟩
  · exact .raises _ _ (.inl ⟨rfl, r, rfl, hr⟩) ho
  · exact .raises _ _ (.inr (.inl ⟨rfl, rfl⟩)) hi
  · exact .writes d _ _ hd hi (.inl (Nat.le_refl _))

theorem plainEffect_of_shiftWrite {i : Instr} {s t : State} {d : RegIdx} {f : Int → Nat → Int}
    {a : Int} {w : Word} (hi : regWritten i = some d) (ho : i.opcode.toNat ∈ [5, 6])
    (h : shiftWrite s d f a (signed16 w) = .next t) : PlainEffect i s t := by
  rcases shiftWrite_cases h with ⟨hb, rfl⟩ | ⟨_, h⟩
  · refine .raises _ _ (.inr (.inr (.inl ⟨rfl, _, rfl, ?_, hb⟩))) ho
    rw [signed16_eq_toInt]; exact (toInt_range w).1
  · refine plainEffect_of_aluWrite hi ?_ h
    simp only [List.mem_cons, List.not_mem_nil, or_false] at ho ⊢; omega

theorem plainEffect_of_raiseAddress {i : Instr} {s t : State} {v : Word}
    (ho : i.opcode.toNat ∈ [10, 11]) (hv : indirectAddr v = none) (h : raiseAddress s v = .next t) : PlainEffect i s t := by
  cases h
  have h1 := indirectAddr_eq_none_iff.mp hv
  have h2 := v.isLt
  exact .raises _ _ (.inr (.inr (.inr ⟨rfl, _, rfl, by omega, by omega⟩))) ho

/-- `LD Rd, 0xFF` with a word offered (R53, R161): the port read, and then the register write or the
fatal error of writing register 0. -/
theorem execLd_port_cases {d : RegIdx} {s t : State} (h : execLd d Config.ioAddr s = .next t) :
    ∃ w s', s.inPort = some (w, s') ∧
      ((d = 0#4 ∧ t = s'.takeFault .reservedRegisterWrite none) ∨
       (d ≠ 0#4 ∧ t = (s'.setReg d w).commit (s.pc + 1))) := by
  simp only [execLd, if_true] at h
  split at h
  · cases h
  · next w s' hp => exact ⟨w, s', hp, writeReg_cases h⟩

/-- Every instruction but `LD Rd, 0xFF` has a plain effect. -/
theorem plainEffect_of_exec {i : Instr} {s t : State} (hp : ∀ d, i ≠ .ld d Config.ioAddr)
    (h : exec i s = .next t) : PlainEffect i s t := by
  cases i with
  | hlt ign => cases h; exact .halts ign rfl
  | add d rs rt => exact plainEffect_of_aluWrite rfl (by simp [Instr.opcode]) h
  | sub d rs rt => exact plainEffect_of_aluWrite rfl (by simp [Instr.opcode]) h
  | and d rs rt => exact plainEffect_of_aluWrite rfl (by simp [Instr.opcode]) h
  | xor d rs rt => exact plainEffect_of_aluWrite rfl (by simp [Instr.opcode]) h
  | shl d rs rt => exact plainEffect_of_shiftWrite rfl (by simp [Instr.opcode]) h
  | shr d rs rt => exact plainEffect_of_shiftWrite rfl (by simp [Instr.opcode]) h
  | lda d addr => exact plainEffect_of_writeReg rfl (.inl (Nat.le_refl _)) h
  | ld d addr =>
    have ha : addr ≠ Config.ioAddr := fun e => hp d (by rw [e])
    simp only [exec, execLd, ha, if_false] at h
    exact plainEffect_of_writeReg rfl (.inl (Nat.le_refl _)) h
  | st d addr => cases h; exact .stores addr _ rfl rfl
  | ldi d rt ign =>
    simp only [exec, execLdi] at h
    split at h
    · next hv => exact plainEffect_of_raiseAddress (by simp [Instr.opcode]) hv h
    · exact plainEffect_of_writeReg rfl (.inl (Nat.le_refl _)) h
  | sti d rt ign =>
    simp only [exec, execSti] at h
    split at h
    · next hv => exact plainEffect_of_raiseAddress (by simp [Instr.opcode]) hv h
    · next a hv => cases h; exact .stores a _ hv rfl
  | bz d addr =>
    cases h
    refine .moves _ (by simp [Instr.opcode]) ?_
    have := addr.isLt
    split
    · right; omega
    · left; exact Nat.le_refl _
  | bp d addr =>
    cases h
    refine .moves _ (by simp [Instr.opcode]) ?_
    have := addr.isLt
    split
    · right; omega
    · left; exact Nat.le_refl _
  | jr d ign =>
    cases h
    exact .moves _ (by simp [Instr.opcode]) (.inr (s.readReg d).isLt)
  | jl d addr =>
    exact plainEffect_of_writeReg rfl (.inr (Nat.le_of_lt_succ addr.isLt)) h

/-- Everything `exec` can answer next: the port read of `LD Rd, 0xFF`, or for every other instruction
a plain effect. -/
theorem exec_next_cases {i : Instr} {s t : State} (h : exec i s = .next t) :
    (PlainEffect i s t ∧ ∀ d, i ≠ .ld d Config.ioAddr) ∨
    ∃ d w s', i = .ld d Config.ioAddr ∧ s.inPort = some (w, s') ∧
      ((d = 0#4 ∧ t = s'.takeFault .reservedRegisterWrite none) ∨
       (d ≠ 0#4 ∧ t = (s'.setReg d w).commit (s.pc + 1))) := by
  by_cases hp : ∃ d, i = .ld d Config.ioAddr
  · obtain ⟨d, rfl⟩ := hp
    obtain ⟨w, s', hin, hc⟩ := execLd_port_cases h
    exact .inr ⟨d, w, s', rfl, hin, hc⟩
  · rw [not_exists] at hp
    exact .inl ⟨plainEffect_of_exec hp h, hp⟩

theorem fetchAddr_eq_some {s : State} (h : s.pc ≤ 255) :
    s.fetchAddr = some (BitVec.ofNat 8 s.pc) := by
  simp [State.fetchAddr, Config.topAddr, h]

/-- A step from a Running state at an address of memory is `exec` of the decoded word. -/
theorem step_running {s : State} (hr : s.run = .running) (hp : s.pc ≤ 255) :
    step s = exec (decode (s.memRead (BitVec.ofNat 8 s.pc))) s := by
  simp [step, hr, fetchAddr_eq_some hp]

/-- After a commit inside memory from a Running state, the next step is `exec` of the word decoded from
the cell the committed pc addresses (R68, R106). -/
theorem step_commit {s : State} {n : Nat} (hr : s.run = .running) (hn : n ≤ 255) :
    step (s.commit n) = exec (decode (s.memRead (BitVec.ofNat 8 n))) (s.commit n) := by
  have h : (s.commit n).run = .running := by simp [hr, Config.topAddr, Nat.not_lt.mpr hn]
  rw [step_running h (by simpa using hn), commit_memRead, commit_pc]

/-- A step that answers a next state was taken Running, at an address of memory, and is `exec` of the
decoded word. -/
theorem step_next_cases {s t : State} (h : step s = .next t) :
    s.run = .running ∧ s.pc ≤ 255 ∧
      exec (decode (s.memRead (BitVec.ofNat 8 s.pc))) s = .next t := by
  unfold step at h
  split at h
  · cases h
  · cases h
  · next hr =>
    split at h
    · cases h
    · next a ha =>
      unfold State.fetchAddr at ha
      split at ha
      · next hp => cases ha; exact ⟨hr, hp, h⟩
      · cases ha

end Sys2Proof.Machine
end

