-- ==== Sys2Proof/Laws/PerInstr.lean ====
section
/-! SUPPORT. Statements made per instruction: the round trip through the encoder and the decoder. -/

namespace Sys2Proof.Laws.RoundTrip

/-- Decoding the encoded instruction gives it back, with every field at every value. -/
def Statement (i : Instr) : Prop := decode (encode i) = i

/-- What a case needs: the opcode nibble and the low 12 bits of the encoded word, and each field as a
part of the low 12 bits. -/
theorem decode_encode_parts (i : Instr) :
    fieldOp (encode i) = i.opcode ∧ fieldLow12 (encode i) = i.low12 ∧
    fieldD (encode i) = i.low12.extractLsb' 8 4 ∧ fieldS (encode i) = i.low12.extractLsb' 4 4 ∧
    fieldT (encode i) = i.low12.extractLsb' 0 4 ∧
    fieldAddr (encode i) = i.low12.extractLsb' 0 8 := by
  have hl : fieldLow12 (encode i) = i.low12 := fieldLow12_join i.opcode i.low12
  rw [fieldD_of_low12, fieldS_of_low12, fieldT_of_low12, fieldAddr_of_low12, hl]
  exact ⟨fieldOp_join i.opcode i.low12, rfl, rfl, rfl, rfl, rfl⟩

theorem hlt (ign : BitVec 12) : Statement (.hlt ign) := by
  obtain ⟨ho, hl, -⟩ := decode_encode_parts (.hlt ign)
  simp [Statement, decode_by_op, ho, hl, Instr.opcode, Instr.low12]

theorem add (d s t : RegIdx) : Statement (.add d s t) := by
  obtain ⟨ho, -, hd, hs, ht, -⟩ := decode_encode_parts (.add d s t)
  simp [Statement, decode_by_op, ho, hd, hs, ht, Instr.opcode, Instr.low12, three_d, three_s, three_t]

theorem sub (d s t : RegIdx) : Statement (.sub d s t) := by
  obtain ⟨ho, -, hd, hs, ht, -⟩ := decode_encode_parts (.sub d s t)
  simp [Statement, decode_by_op, ho, hd, hs, ht, Instr.opcode, Instr.low12, three_d, three_s, three_t]

theorem and (d s t : RegIdx) : Statement (.and d s t) := by
  obtain ⟨ho, -, hd, hs, ht, -⟩ := decode_encode_parts (.and d s t)
  simp [Statement, decode_by_op, ho, hd, hs, ht, Instr.opcode, Instr.low12, three_d, three_s, three_t]

theorem xor (d s t : RegIdx) : Statement (.xor d s t) := by
  obtain ⟨ho, -, hd, hs, ht, -⟩ := decode_encode_parts (.xor d s t)
  simp [Statement, decode_by_op, ho, hd, hs, ht, Instr.opcode, Instr.low12, three_d, three_s, three_t]

theorem shl (d s t : RegIdx) : Statement (.shl d s t) := by
  obtain ⟨ho, -, hd, hs, ht, -⟩ := decode_encode_parts (.shl d s t)
  simp [Statement, decode_by_op, ho, hd, hs, ht, Instr.opcode, Instr.low12, three_d, three_s, three_t]

theorem shr (d s t : RegIdx) : Statement (.shr d s t) := by
  obtain ⟨ho, -, hd, hs, ht, -⟩ := decode_encode_parts (.shr d s t)
  simp [Statement, decode_by_op, ho, hd, hs, ht, Instr.opcode, Instr.low12, three_d, three_s, three_t]

theorem lda (d : RegIdx) (addr : Addr) : Statement (.lda d addr) := by
  obtain ⟨ho, -, hd, -, -, ha⟩ := decode_encode_parts (.lda d addr)
  simp [Statement, decode_by_op, ho, hd, ha, Instr.opcode, Instr.low12, two_d, two_a]

theorem ld (d : RegIdx) (addr : Addr) : Statement (.ld d addr) := by
  obtain ⟨ho, -, hd, -, -, ha⟩ := decode_encode_parts (.ld d addr)
  simp [Statement, decode_by_op, ho, hd, ha, Instr.opcode, Instr.low12, two_d, two_a]

theorem st (d : RegIdx) (addr : Addr) : Statement (.st d addr) := by
  obtain ⟨ho, -, hd, -, -, ha⟩ := decode_encode_parts (.st d addr)
  simp [Statement, decode_by_op, ho, hd, ha, Instr.opcode, Instr.low12, two_d, two_a]

theorem ldi (d t : RegIdx) (ign : BitVec 4) : Statement (.ldi d t ign) := by
  obtain ⟨ho, -, hd, hs, ht, -⟩ := decode_encode_parts (.ldi d t ign)
  simp [Statement, decode_by_op, ho, hd, hs, ht, Instr.opcode, Instr.low12, three_d, three_s, three_t]

theorem sti (d t : RegIdx) (ign : BitVec 4) : Statement (.sti d t ign) := by
  obtain ⟨ho, -, hd, hs, ht, -⟩ := decode_encode_parts (.sti d t ign)
  simp [Statement, decode_by_op, ho, hd, hs, ht, Instr.opcode, Instr.low12, three_d, three_s, three_t]

theorem bz (d : RegIdx) (addr : Addr) : Statement (.bz d addr) := by
  obtain ⟨ho, -, hd, -, -, ha⟩ := decode_encode_parts (.bz d addr)
  simp [Statement, decode_by_op, ho, hd, ha, Instr.opcode, Instr.low12, two_d, two_a]

theorem bp (d : RegIdx) (addr : Addr) : Statement (.bp d addr) := by
  obtain ⟨ho, -, hd, -, -, ha⟩ := decode_encode_parts (.bp d addr)
  simp [Statement, decode_by_op, ho, hd, ha, Instr.opcode, Instr.low12, two_d, two_a]

theorem jr (d : RegIdx) (ign : BitVec 8) : Statement (.jr d ign) := by
  obtain ⟨ho, -, hd, -, -, ha⟩ := decode_encode_parts (.jr d ign)
  simp [Statement, decode_by_op, ho, hd, ha, Instr.opcode, Instr.low12, two_d, two_a]

theorem jl (d : RegIdx) (addr : Addr) : Statement (.jl d addr) := by
  obtain ⟨ho, -, hd, -, -, ha⟩ := decode_encode_parts (.jl d addr)
  simp [Statement, decode_by_op, ho, hd, ha, Instr.opcode, Instr.low12, two_d, two_a]

end Sys2Proof.Laws.RoundTrip
end

