-- ==== Sys2Proof/Tests/Slice0.lean ====
section
/-! SUPPORT. The model's own tests. Expected results are the spec's: spec/95_test_vectors.md (L1 its
source's examples, L2 its derived vectors) or, where named, a rule's own example. Then, for every
obligation with hypotheses, a witness that meets them. -/

open Sys2Proof Sys2Proof.Machine

namespace Sys2Proof.Tests

/-- Reset, with some registers set, some cells preloaded and some input words offered. -/
def start (regs : List (RegIdx × Word)) (cells : List (Addr × Word)) (inputs : List Word) : State :=
  regs.foldl (fun s p => s.setReg p.1 p.2) (State.boot cells inputs)

/-- One step of a state made by `start` with the word `w` in cell `0x10`. -/
def one (regs : List (RegIdx × Word)) (cells : List (Addr × Word)) (inputs : List Word) (w : Word) :
    Option State :=
  nextState (step (start regs ((0x10#8, w) :: cells) inputs))

/-- A register, the pc and the run status after that step. -/
def reg (i : RegIdx) (o : Option State) : Option (Word × Nat × RunStatus) :=
  o.map fun t => (t.readReg i, t.pc, t.run)

/-- The pc and the run status after that step. -/
def ends (o : Option State) : Option (Nat × RunStatus) := o.map fun t => (t.pc, t.run)

/-- The fault record and the pc after that step, when it faulted. -/
def faults (o : Option State) : Option (FaultRecord × Nat) :=
  o.bind fun t => if t.run = .faulted then some (t.fault, t.pc) else none

/-- A cell and the trace after that step. -/
def cell (a : Addr) (o : Option State) : Option (Word × List Event) :=
  o.map fun t => (t.memRead a, t.trace)

/-! ## Well-formedness: each check refuses an ill-formed term -/

theorem test_wellFormed_refuses_hlt : (Instr.hlt 0xABC#12).wellFormed = false := by decide
theorem test_wellFormed_refuses_ldi : (Instr.ldi 4#4 1#4 0xF#4).wellFormed = false := by decide
theorem test_wellFormed_refuses_sti : (Instr.sti 4#4 5#4 1#4).wellFormed = false := by decide
theorem test_wellFormed_refuses_jr : (Instr.jr 10#4 0x5C#8).wellFormed = false := by decide
theorem test_wellFormed_accepts : (Instr.jr 10#4 0#8).wellFormed = true := by decide

/-! ## Decoding: a word of every constructor, its nibbles written out from R80, R86 and the rule's
own example -/

theorem test_decode_hlt : decode 0b0000101010111100#16 = .hlt 0xABC#12 := by decide
theorem test_decode_add : decode 0b0001001100010010#16 = .add 3#4 1#4 2#4 := by decide
theorem test_decode_sub : decode 0b0010001100010010#16 = .sub 3#4 1#4 2#4 := by decide
theorem test_decode_and : decode 0b0011001100010010#16 = .and 3#4 1#4 2#4 := by decide
theorem test_decode_xor : decode 0b0100001100010010#16 = .xor 3#4 1#4 2#4 := by decide
theorem test_decode_shl : decode 0b0101001100010010#16 = .shl 3#4 1#4 2#4 := by decide
theorem test_decode_shr : decode 0b0110001100010010#16 = .shr 3#4 1#4 2#4 := by decide
theorem test_decode_lda : decode 0b0111000100100000#16 = .lda 1#4 0x20#8 := by decide
theorem test_decode_ld : decode 0b1000000100000000#16 = .ld 1#4 0x00#8 := by decide
theorem test_decode_st : decode 0b1001001111111111#16 = .st 3#4 0xFF#8 := by decide
theorem test_decode_ldi : decode 0b1010010011110001#16 = .ldi 4#4 1#4 0xF#4 := by decide
theorem test_decode_sti : decode 0b1011010000000101#16 = .sti 4#4 5#4 0#4 := by decide
theorem test_decode_bz : decode 0b1100000100100000#16 = .bz 1#4 0x20#8 := by decide
theorem test_decode_bp : decode 0b1101001000110000#16 = .bp 2#4 0x30#8 := by decide
theorem test_decode_jr : decode 0b1110101001011100#16 = .jr 10#4 0x5C#8 := by decide
theorem test_decode_jl : decode 0b1111101000100000#16 = .jl 10#4 0x20#8 := by decide

/-- R90: the assembler writes ignored fields as zero. -/
theorem test_encode_canonical :
    encode (Instr.ldi 4#4 1#4 0xF#4).canonical = 0xA401#16 ∧
    encode (Instr.jr 10#4 0x5C#8).canonical = 0xEA00#16 := by decide

/-- The host's numbering: a 16-bit row, and more bits than an instruction has. -/
theorem test_decodeTableWord :
    decodeTableWord 16 0x7120 = some (.lda 1#4 0x20#8) ∧ decodeTableWord 32 0x7120 = none := by decide

/-- R90's notation and the encodings of R91. -/
theorem test_assembly :
    assembly (.add 3#4 1#4 2#4) = "ADD R3, R1, R2" ∧ assembly (.jl 10#4 0x2F#8) = "JL RA, 0x2F" ∧
    assembly (.hlt 0#12) = "HLT" := by decide
theorem test_pseudo_encodings :
    encode (pseudoJmp 0x13#8) = 0xC013#16 ∧ encode pseudoNop = 0xD000#16 ∧
    encode (pseudoMov 2#4 5#4) = 0x1250#16 ∧ encode (pseudoClr 7#4) = 0x7700#16 ∧
    encode (pseudoIn 1#4) = 0x81FF#16 ∧ encode (pseudoOut 3#4) = 0x93FF#16 ∧
    encode (pseudoCall 10#4 0x20#8) = 0xFA20#16 ∧ encode (pseudoRet 10#4) = 0xEA00#16 := by decide

/-! ## One step (spec/95_test_vectors.md L1 and L2) -/

/-- L2.1: `7FFF + 8000 = FFFF`, and L1.3: `7FFF + 1` overflows with 32768, also with `d = 0`. -/
theorem test_add_signs :
    reg 3#4 (one [(1#4, 0x7FFF#16), (2#4, 0x8000#16)] [] [] 0x1312#16) =
      some (0xFFFF#16, 0x11, .running) := by decide
theorem test_add_overflow :
    faults (one [(1#4, 0x7FFF#16), (2#4, 0x0001#16)] [] [] 0x1012#16) =
      some (⟨.arithmeticOverflow, some 0x10, some 32768⟩, 0x10) := by decide

/-- L2.1: operand order `3 - 5`, and `0 - (-32768)` overflows. -/
theorem test_sub_order :
    reg 3#4 (one [(1#4, 0x0003#16), (2#4, 0x0005#16)] [] [] 0x2312#16) =
      some (0xFFFE#16, 0x11, .running) := by decide
theorem test_sub_overflow :
    faults (one [(1#4, 0x0000#16), (2#4, 0x8000#16)] [] [] 0x2312#16) =
      some (⟨.arithmeticOverflow, some 0x10, some 32768⟩, 0x10) := by decide

/-- L2.1. -/
theorem test_and_sign :
    reg 3#4 (one [(1#4, 0xFFFF#16), (2#4, 0x8000#16)] [] [] 0x3312#16) =
      some (0x8000#16, 0x11, .running) := by decide
theorem test_and_mixed :
    reg 3#4 (one [(1#4, 0x00F0#16), (2#4, 0x0F3C#16)] [] [] 0x3312#16) =
      some (0x0030#16, 0x11, .running) := by decide

/-- L2.1. -/
theorem test_xor_sign :
    reg 3#4 (one [(1#4, 0xFFFF#16), (2#4, 0x8000#16)] [] [] 0x4312#16) =
      some (0x7FFF#16, 0x11, .running) := by decide
theorem test_xor_complement :
    reg 3#4 (one [(1#4, 0x1234#16), (2#4, 0xFFFF#16)] [] [] 0x4312#16) =
      some (0xEDCB#16, 0x11, .running) := by decide

/-- L2.1: `-1 * 32768` fits, and count 16 of 1 overflows with 65536. -/
theorem test_shl_negative :
    reg 3#4 (one [(1#4, 0xFFFF#16), (2#4, 0x000F#16)] [] [] 0x5312#16) =
      some (0x8000#16, 0x11, .running) := by decide
theorem test_shl_overflow :
    faults (one [(1#4, 0x0001#16), (2#4, 0x0010#16)] [] [] 0x5312#16) =
      some (⟨.arithmeticOverflow, some 0x10, some 65536⟩, 0x10) := by decide

/-- L2.1: the sign is copied, and a negative count faults with the count. -/
theorem test_shr_arithmetic :
    reg 3#4 (one [(1#4, 0x8000#16), (2#4, 0x0001#16)] [] [] 0x6312#16) =
      some (0xC000#16, 0x11, .running) := by decide
theorem test_shr_negative_count :
    faults (one [(1#4, 0x0005#16), (2#4, 0x8000#16)] [] [] 0x6312#16) =
      some (⟨.shiftCountNegative, some 0x10, some (-32768)⟩, 0x10) := by decide

/-- L2.2: zero extension, and `R0` protected (L1.2). -/
theorem test_lda_zero_extends :
    reg 1#4 (one [] [] [] 0x71FF#16) = some (0x00FF#16, 0x11, .running) := by decide
theorem test_lda_r0_faults :
    faults (one [] [] [] 0x7005#16) =
      some (⟨.reservedRegisterWrite, some 0x10, none⟩, 0x10) := by decide

/-- L2.2: a direct load, and L1.7: an input word. -/
theorem test_ld_direct :
    reg 1#4 (one [] [(0x00#8, 0x1234#16)] [] 0x8100#16) = some (0x1234#16, 0x11, .running) := by decide
theorem test_ld_input :
    cell 0xFF#8 (one [] [] [0x0042#16] 0x81FF#16) = some (0x0042#16, [.input 0x0042#16]) := by decide

/-- L1.7: with no word offered the core waits. -/
theorem test_ld_waits : step (start [] [(0x10#8, 0x81FF#16)] []) = .fault .waiting := by rfl

/-- L2.2: `LD R0, FF` keeps the input word and then faults. -/
theorem test_ld_input_r0 :
    (one [] [] [0x0042#16] 0x80FF#16).map (fun t => (t.memRead 0xFF#8, t.fault.kind, t.trace)) =
      some (0x0042#16, .reservedRegisterWrite, [.input 0x0042#16]) := by decide

/-- L2.2: `ST R0` stores zero, and a store to `FF` is an output event. -/
theorem test_st_r0 :
    cell 0x20#8 (one [] [(0x20#8, 0x1111#16)] [] 0x9020#16) = some (0x0000#16, []) := by decide
theorem test_st_output :
    cell 0xFF#8 (one [(3#4, 0x0005#16)] [] [] 0x93FF#16) =
      some (0x0005#16, [.output 0x0005#16]) := by decide

/-- L2.2: `LDI` from `FF` requests no input, and an address above `00FF` faults first. -/
theorem test_ldi_port_cell :
    (one [(1#4, 0x00FF#16)] [(0xFF#8, 0x0077#16)] [0x9999#16] 0xA301#16).map
      (fun t => (t.readReg 3#4, t.inputs, t.trace)) = some (0x0077#16, [0x9999#16], []) := by decide
theorem test_ldi_out_of_range :
    faults (one [(1#4, 0x0100#16)] [] [] 0xA001#16) =
      some (⟨.addressOutOfRange, some 0x10, some 0x0100⟩, 0x10) := by decide

/-- L2.2: `STI` with `d = t`, and to `FF`. -/
theorem test_sti_same_register :
    cell 0x20#8 (one [(1#4, 0x0020#16)] [] [] 0xB101#16) = some (0x0020#16, []) := by decide
theorem test_sti_output :
    cell 0xFF#8 (one [(1#4, 0x00FF#16), (2#4, 0x0077#16)] [] [] 0xB201#16) =
      some (0x0077#16, [.output 0x0077#16]) := by decide

/-- L2.3: `HLT` with other bits set, and L2.4: the empty image halts at `0x10`. -/
theorem test_hlt_other_bits : ends (one [] [] [] 0x0ABC#16) = some (0x10, .halted) := by decide
theorem test_hlt_reset : ends (nextState (step State.reset)) = some (0x10, .halted) := by decide

/-- L2.3. -/
theorem test_bz_taken : ends (one [] [] [] 0xC140#16) = some (0x40, .running) := by decide
theorem test_bz_negative :
    ends (one [(1#4, 0x8000#16)] [] [] 0xC140#16) = some (0x11, .running) := by decide
theorem test_bp_taken :
    ends (one [(2#4, 0x7FFF#16)] [] [] 0xD230#16) = some (0x30, .running) := by decide
theorem test_bp_negative :
    ends (one [(2#4, 0x8000#16)] [] [] 0xD230#16) = some (0x11, .running) := by decide
theorem test_jr_to_top :
    ends (one [(1#4, 0x00FE#16)] [] [] 0xE100#16) = some (0xFF, .running) := by decide
theorem test_jr_past_top :
    ends (one [(1#4, 0xFFFF#16)] [] [] 0xE100#16) = some (0x10000, .halted) := by decide
theorem test_jl_links :
    reg 10#4 (one [] [] [] 0xFA20#16) = some (0x0010#16, 0x20, .running) := by decide
theorem test_jl_r0_faults :
    faults (one [] [] [] 0xF020#16) =
      some (⟨.reservedRegisterWrite, some 0x10, none⟩, 0x10) := by decide

/-- L1.8 and L2.4: the word fetched from `FF` runs without input, and the pc past the top halts with
no fault; an ended run takes no step. -/
theorem test_fetch_from_top :
    (nextState (step { start [] [(0xFF#8, 0x7202#16)] [] with pc := 0xFF })).map
      (fun t => (t.readReg 2#4, t.pc, t.run, t.fault.kind)) =
      some (0x0002#16, 0x100, .halted, .noFault) := by decide
theorem test_ended_run_takes_no_step :
    step { State.reset with run := .halted } = .fault .terminal := by rfl

/-- R12: bitwise AND and XOR of negative integers. -/
theorem test_integer_operations :
    intAnd (-1) (-32768) = -32768 ∧ intAnd (-6) 3 = 2 ∧ intXor (-1) 5 = -6 ∧
    intShr (-5) 1 = -3 ∧ intShl (-3) 2 = -12 := by decide

/-- The spec's numbers for run states and fault kinds (R32, R220). -/
theorem test_codes :
    RunStatus.running.code = 0 ∧ RunStatus.halted.code = 1 ∧ RunStatus.faulted.code = 2 ∧
    FaultKind.noFault.code = 0 ∧ FaultKind.addressOutOfRange.code = 4 := by decide

/-- The canonical form: writing zero removes the entry. -/
theorem test_memory_canonical :
    (Memory.write (Memory.write [] 0x20#8 5#16) 0x10#8 7#16) = [(0x10, 7#16), (0x20, 5#16)] ∧
    (Memory.write [(0x10, 7#16), (0x20, 5#16)] 0x10#8 0#16) = [(0x20, 5#16)] := by decide

/-! ## Witnesses: for every obligation with hypotheses, concrete inputs that meet all of them, clause
by clause, at the ends of each clause's range -/

/-- Registers `R1` and `R2` set, the other elements as at reset. -/
def two (a b : Word) : State := (State.reset.setReg 1#4 a).setReg 2#4 b

/-- Reset with the word at the pc and some input words. -/
def loaded (w : Word) (inputs : List Word) : State := State.boot [(0x10#8, w)] inputs

theorem reset_inv : State.reset.Inv where
  memCanonical := by decide
  regZero := by decide
  pcWhileRunning := fun _ => by decide
  pcBound := by decide
  faultRecorded := by decide
  faultAtPc := by decide
  faultShape := ⟨rfl, rfl⟩

theorem witness_PreloadSetsExactlyTheNamedCells :
    let image : List (Addr × Word) := [(0xFF#8, 5#16), (0x00#8, 7#16)]
    (image.map Prod.fst).Nodup ∧ (0xFF#8, 5#16) ∈ image ∧ 0x10#8 ∉ image.map Prod.fst := by decide

theorem witness_FirstStepRunsCellSixteen :
    let image : List (Addr × Word) := [(0x10#8, 0x7120#16)]
    (image.map Prod.fst).Nodup ∧ (0x10#8, 0x7120#16) ∈ image ∧
    0x10#8 ∉ ([(0x11#8, 0x7120#16)] : List (Addr × Word)).map Prod.fst := by decide

theorem witness_DecodeSplitsTheWordIntoItsFields :
    ∀ op : Fin 16, (BitVec.ofNat 16 (op.val * 4096 + 0xFFF)).toNat / 4096 = op.val := by decide

theorem witness_IgnoredFieldsChangeNothing :
    (decode 0xA4F1#16).canonical = (decode 0xA401#16).canonical ∧ (0x0FFF#16).toNat ≤ 0x0FFF ∧
    (0x0000#16).toNat ≤ 0x0FFF := by decide

theorem witness_StepRunsTheDecodedWord :
    let s : State := { loaded 0x7120#16 [] with pc := 0xFF }
    (s.run = .running ∧ s.pc ≤ 255 ∧ decode (s.memRead (BitVec.ofNat 8 s.pc)) = .hlt 0#12) ∧
    ((loaded 0x7120#16 []).run = .running ∧ (loaded 0x7120#16 []).pc ≤ 255 ∧
      decode ((loaded 0x7120#16 []).memRead 0x10#8) = .lda 1#4 0x20#8) := by decide

theorem witness_WordPlacedAtThePcRunsNext :
    State.reset.run = .running ∧ State.reset.pc ≤ 255 ∧
    decodeTableWord 16 0x1312 = some (.add 3#4 1#4 2#4) := by decide

theorem witness_EngineStatesChangeOnlyAsTheSpecSays :
    ({ State.reset with run := .halted } : State).run ≠ .running ∧
    ({ State.reset with run := .faulted } : State).run ≠ .running ∧
    State.reset.Inv ∧ ∃ t, step State.reset = .next t :=
  ⟨by decide, by decide, reset_inv, _, rfl⟩

theorem witness_StepIsEnabledExactly :
    let s := loaded 0x83FF#16 []
    s.pc ≤ 255 ∧ s.run = .running ∧ s.inputs = [] ∧
    decode (s.memRead (BitVec.ofNat 8 s.pc)) = .ld 3#4 0xFF#8 := by decide

theorem witness_OfferedWordEndsTheWait : step (loaded 0x80FF#16 []) = .fault .waiting := by rfl

theorem witness_CommitSetsThePcAndHaltsPastTheTop : 255 ≤ 255 ∧ 255 < 256 := by decide

theorem witness_SequentialInstructionsGoOnAtPcPlusOne :
    (two 1#16 2#16).run = .running ∧ (Instr.add 3#4 1#4 2#4).opcode.toNat ∈
      [1, 2, 3, 4, 5, 6, 7, 8, 9, 10, 11] ∧
    ∃ t, exec (.add 3#4 1#4 2#4) (two 1#16 2#16) = .next t ∧ t.run ≠ .faulted :=
  ⟨by decide, by decide, _, rfl, by decide⟩

theorem witness_WriteRegProtectsRegisterZero : (0#4 : RegIdx) = 0#4 ∧ (15#4 : RegIdx) ≠ 0#4 := by
  decide

theorem witness_WritingRegisterZeroEndsTheRun :
    regWritten (.jl 0#4 0x20#8) = some 0#4 ∧ ∃ t, exec (.jl 0#4 0x20#8) State.reset = .next t :=
  ⟨by decide, _, rfl⟩

/-- Both clauses: the port read into `R0`, and another fatal error. -/
theorem witness_FatalErrorsArePrecise :
    (loaded 0x80FF#16 [5#16]).run = .running ∧
    (∃ t, exec (.ld 0#4 0xFF#8) (loaded 0x80FF#16 [5#16]) = .next t ∧ t.run = .faulted) ∧
    (∃ t, exec (.lda 0#4 0x05#8) (loaded 0x80FF#16 [5#16]) = .next t ∧ t.run = .faulted) :=
  ⟨by decide, ⟨_, rfl, rfl⟩, _, rfl, rfl⟩

/-- Each of the four kinds. -/
theorem witness_FatalErrorKindsByInstruction :
    (two 0x7FFF#16 0x8000#16).run = .running ∧
    (∃ t, exec (.sub 3#4 1#4 2#4) (two 0x7FFF#16 0x8000#16) = .next t ∧ t.run = .faulted ∧
      t.fault.kind = .arithmeticOverflow) ∧
    (∃ t, exec (.lda 0#4 0#8) (two 0x7FFF#16 0x8000#16) = .next t ∧ t.run = .faulted ∧
      t.fault.kind = .reservedRegisterWrite) ∧
    (∃ t, exec (.shr 3#4 1#4 2#4) (two 0x7FFF#16 0x8000#16) = .next t ∧ t.run = .faulted ∧
      t.fault.kind = .shiftCountNegative) ∧
    (∃ t, exec (.ldi 3#4 2#4 0#4) (two 0x7FFF#16 0x8000#16) = .next t ∧ t.run = .faulted ∧
      t.fault.kind = .addressOutOfRange) :=
  ⟨by decide, ⟨_, rfl, by decide, by decide⟩, ⟨_, rfl, by decide, by decide⟩,
    ⟨_, rfl, by decide, by decide⟩, _, rfl, by decide, by decide⟩

theorem witness_SignedReadingAndPatternAreInverse :
    ((-32768 : Int) ≤ -32768 ∧ (-32768 : Int) ≤ 32767) ∧
    ((-32768 : Int) ≤ 32767 ∧ (32767 : Int) ≤ 32767) := by decide

theorem witness_AluResultIsValidatedThenWritten :
    (((-32769 : Int) < -32768 ∨ (32767 : Int) < -32769) ∧
      ((32768 : Int) < -32768 ∨ (32767 : Int) < 32768)) ∧
    ((-32768 : Int) ≤ 32767 ∧ (32767 : Int) ≤ 32767 ∧ (0#4 : RegIdx) = 0#4) ∧
    ((-32768 : Int) ≤ -32768 ∧ (-32768 : Int) ≤ 32767 ∧ (3#4 : RegIdx) ≠ 0#4) := by decide

/-- The three clauses of `ADD`: just outside the range, just inside it, with `d = 0` and without. -/
theorem witness_AddWritesTheExactSum :
    32767 < ((two 0x7FFF#16 1#16).readReg 1#4).toInt + ((two 0x7FFF#16 1#16).readReg 2#4).toInt ∧
    (let s := two 0x7FFF#16 0#16
     let r := (s.readReg 1#4).toInt + (s.readReg 2#4).toInt
     (-32768 : Int) ≤ r ∧ r ≤ 32767 ∧ (0#4 : RegIdx) = 0#4 ∧ (3#4 : RegIdx) ≠ 0#4) := by decide

theorem witness_SubWritesTheExactDifference :
    ((two 0x8000#16 1#16).readReg 1#4).toInt - ((two 0x8000#16 1#16).readReg 2#4).toInt < -32768 ∧
    (let s := two 0xFFFF#16 0x7FFF#16
     let r := (s.readReg 1#4).toInt - (s.readReg 2#4).toInt
     (-32768 : Int) ≤ r ∧ r ≤ 32767 ∧ (0#4 : RegIdx) = 0#4 ∧ (3#4 : RegIdx) ≠ 0#4) := by decide

theorem witness_AndWritesTheBitwiseAnd : (0#4 : RegIdx) = 0#4 ∧ (1#4 : RegIdx) ≠ 0#4 := by decide

theorem witness_XorWritesTheBitwiseXor : (0#4 : RegIdx) = 0#4 ∧ (1#4 : RegIdx) ≠ 0#4 := by decide

/-- The clauses of `SHL`: the least negative count; the count 16 of 1; `-1` by 15. -/
theorem witness_ShlMultipliesOrFaults :
    0x8000 ≤ ((two 1#16 0x8000#16).readReg 2#4).toNat ∧
    (let s := two 1#16 16#16
     let b := (s.readReg 2#4).toNat
     b < 0x8000 ∧ 32767 < (s.readReg 1#4).toInt * ((2 ^ b : Nat) : Int)) ∧
    (let s := two 0xFFFF#16 15#16
     let b := (s.readReg 2#4).toNat
     let r := (s.readReg 1#4).toInt * ((2 ^ b : Nat) : Int)
     b < 0x8000 ∧ -32768 ≤ r ∧ r ≤ 32767 ∧ (0#4 : RegIdx) = 0#4 ∧ (3#4 : RegIdx) ≠ 0#4) := by
  decide

theorem witness_ShrShiftsArithmeticallyOrFaults :
    0x8000 ≤ ((two 1#16 0x8000#16).readReg 2#4).toNat ∧
    ((two 1#16 0x7FFF#16).readReg 2#4).toNat < 0x8000 ∧
    (0#4 : RegIdx) = 0#4 ∧ (3#4 : RegIdx) ≠ 0#4 := by decide

theorem witness_LdaWritesTheZeroExtendedByte : (0#4 : RegIdx) = 0#4 ∧ (1#4 : RegIdx) ≠ 0#4 := by
  decide

theorem witness_LdReadsTheCell :
    (0xFE#8 : Addr) ≠ 0xFF#8 ∧ (0#4 : RegIdx) = 0#4 ∧ (1#4 : RegIdx) ≠ 0#4 := by decide

theorem witness_InPortTakesOneOfferedWord :
    State.reset.inputs = [] ∧ (loaded 0x81FF#16 [5#16]).inputs = 5#16 :: [] := by decide

theorem witness_LdReadsTheInputPort :
    State.reset.inputs = [] ∧ (loaded 0x81FF#16 [5#16, 6#16]).inputs = 5#16 :: [6#16] ∧
    (0#4 : RegIdx) = 0#4 ∧ (1#4 : RegIdx) ≠ 0#4 := by decide

/-- The addresses where the clauses of `LDI` meet. -/
theorem witness_LdiLoadsThroughTheRegister :
    0x00FF < ((two 0x0100#16 0#16).readReg 1#4).toNat ∧
    ((two 0x00FF#16 0#16).readReg 1#4).toNat ≤ 0x00FF ∧
    (0#4 : RegIdx) = 0#4 ∧ (3#4 : RegIdx) ≠ 0#4 := by decide

theorem witness_StiStoresThroughTheRegister :
    0x00FF < ((two 0x0100#16 0#16).readReg 1#4).toNat ∧
    ((two 0x00FF#16 0#16).readReg 1#4).toNat ≤ 0x00FF := by decide

theorem witness_NoOtherReadTriggersTheInputPort :
    (∃ t, exec (.ld 1#4 0xFF#8) (loaded 0x81FF#16 [5#16]) = .next t ∧
      t.inputs ≠ (loaded 0x81FF#16 [5#16]).inputs) ∧
    (two 0x00FF#16 0#16).readReg 1#4 = 0x00FF#16 ∧ (3#4 : RegIdx) ≠ 0#4 ∧
    ({ State.reset with pc := 0xFF } : State).run = .running :=
  ⟨⟨_, rfl, by decide⟩, by decide, by decide, rfl⟩

theorem witness_PortEventsAreExactlyTheWritesOfThePortCell :
    (storeAddr (.sti 2#4 1#4 0#4) (two 0x00FF#16 0x0077#16) = some 0xFF#8 ∧
      ∃ t, exec (.sti 2#4 1#4 0#4) (two 0x00FF#16 0x0077#16) = .next t) ∧
    (storeAddr (.st 2#4 0xFE#8) State.reset ≠ some 0xFF#8 ∧
      ∃ t, exec (.st 2#4 0xFE#8) State.reset = .next t) :=
  ⟨⟨by decide, _, rfl⟩, by decide, _, rfl⟩

theorem witness_BzBranchesOnZero :
    (State.reset.readReg 1#4).toInt = 0 ∧ ((two 0x8000#16 0#16).readReg 1#4).toInt ≠ 0 := by decide

/-- Both ends of the positive range, and zero and the least negative word beside them. -/
theorem witness_BpBranchesOnPositive :
    (0x0001 ≤ ((two 1#16 0x7FFF#16).readReg 1#4).toNat ∧
      ((two 1#16 0x7FFF#16).readReg 1#4).toNat ≤ 0x7FFF) ∧
    (0x0001 ≤ ((two 1#16 0x7FFF#16).readReg 2#4).toNat ∧
      ((two 1#16 0x7FFF#16).readReg 2#4).toNat ≤ 0x7FFF) ∧
    ((two 0#16 0x8000#16).readReg 1#4).toNat = 0 ∧
    0x8000 ≤ ((two 0#16 0x8000#16).readReg 2#4).toNat := by decide

theorem witness_JrLandsOnePastTheRegister :
    ((two 0x00FE#16 0x00FF#16).readReg 1#4).toNat < 0x00FF ∧
    0x00FF ≤ ((two 0x00FE#16 0x00FF#16).readReg 2#4).toNat := by decide

theorem witness_JlSavesItsOwnAddress :
    ({ State.reset with pc := 255 } : State).pc ≤ 255 ∧ (0#4 : RegIdx) = 0#4 ∧
    (10#4 : RegIdx) ≠ 0#4 := by decide

theorem witness_CallThenReturnLandsAfterTheCall :
    State.reset.pc ≤ 255 ∧ (10#4 : RegIdx) ≠ 0#4 ∧
    ∃ t u : State, exec (.jl 10#4 0x20#8) State.reset = .next t ∧ u.readReg 10#4 = t.readReg 10#4 :=
  ⟨by decide, by decide, _, _, rfl, rfl⟩

theorem witness_PseudoInstructionsDoWhatTheySay :
    State.reset.Inv ∧ (1#4 : RegIdx) ≠ 0#4 := ⟨reset_inv, by decide⟩

/-- One register writer of each completing kind, and one that raises. -/
theorem witness_FrameOfRegisterWriters :
    (∃ t, exec (.add 3#4 1#4 2#4) (two 1#16 2#16) = .next t) ∧
    (∃ t, exec (.ldi 3#4 1#4 0#4) (two 1#16 2#16) = .next t) ∧
    ((0x20#8 : Addr) ≠ 0xFF#8 ∧ ∃ t, exec (.ld 3#4 0x20#8) (two 1#16 2#16) = .next t) ∧
    (∃ t, exec (.jl 0#4 0x20#8) (two 1#16 2#16) = .next t) :=
  ⟨⟨_, rfl⟩, ⟨_, rfl⟩, ⟨by decide, _, rfl⟩, _, rfl⟩

theorem witness_FrameOfControlFlow : ∃ t, exec (.bz 1#4 0x20#8) (two 1#16 2#16) = .next t := ⟨_, rfl⟩

theorem witness_FrameOfStores :
    (∃ t, exec (.st 1#4 0xFF#8) (two 1#16 0x0100#16) = .next t) ∧
    (∃ t, exec (.sti 1#4 1#4 0#4) (two 1#16 0x0100#16) = .next t) ∧
    (∃ t, exec (.sti 1#4 2#4 0#4) (two 1#16 0x0100#16) = .next t) ∧
    (∃ t, exec (.ld 1#4 0xFF#8) (loaded 0x81FF#16 [5#16]) = .next t) :=
  ⟨⟨_, rfl⟩, ⟨_, rfl⟩, ⟨_, rfl⟩, _, rfl⟩

/-- The register written, and one that is neither read nor written. -/
theorem witness_UnreadRegistersHaveNoInfluence :
    (two 1#16 2#16).run = .running ∧ 3#4 ∉ regsRead (.add 3#4 1#4 2#4) ∧
    regWritten (.add 3#4 1#4 2#4) = some 3#4 ∧
    4#4 ∉ regsRead (.add 3#4 1#4 2#4) ∧ regWritten (.add 3#4 1#4 2#4) ≠ some 4#4 ∧
    ∃ t, exec (.add 3#4 1#4 2#4) (two 1#16 2#16) = .next t ∧ t.run ≠ .faulted :=
  ⟨by decide, by decide, by decide, by decide, by decide, _, rfl, by decide⟩

theorem witness_StepKeepsTheInvariant : State.reset.Inv ∧ ∃ t, step State.reset = .next t :=
  ⟨reset_inv, _, rfl⟩

/-- A state whose trace is not empty. -/
theorem witness_StepKeepsThePortCellCurrent :
    (∀ e, ({ State.reset with mem := [(0xFF, 5#16)], trace := [.output 5#16] } : State).trace.getLast?
      = some e → e = .output 5#16) ∧
    ({ State.reset with mem := [(0xFF, 5#16)], trace := [.output 5#16] } : State).PortCellCurrent ∧
    ∃ t, step { State.reset with mem := [(0xFF, 5#16)], trace := [.output 5#16] } = .next t := by
  refine ⟨?_, ?_, _, rfl⟩
  · intro e he; cases he; rfl
  · intro e he; cases he; rfl

theorem witness_InputWordsAreConsumedInOrder : ∃ t, step (loaded 0x81FF#16 [5#16, 6#16]) = .next t :=
  ⟨_, rfl⟩

theorem witness_TraceIsNeverReadBack :
    (∃ t, step (loaded 0x81FF#16 [5#16]) = .next t) ∧
    step (loaded 0x81FF#16 []) = .fault .waiting := ⟨⟨_, rfl⟩, rfl⟩

theorem witness_FaultRecordIsNeverReadBack :
    (∃ t, step (loaded 0x7005#16 []) = .next t ∧ t.run = .faulted) ∧
    (∃ t, step (loaded 0x7105#16 []) = .next t ∧ t.run ≠ .faulted) :=
  ⟨⟨_, rfl, by decide⟩, _, rfl, by decide⟩

/-- Each clause: the cell just past reset's pc, and the port cell from `0xFE`, the top of its range. -/
theorem witness_StoredWordIsFetchedNext :
    (State.reset.run = .running ∧ State.reset.pc + 1 = (0x11#8 : Addr).toNat) ∧
    (let s : State := { two 0x00FF#16 0x7142#16 with pc := 0xFE }
     s.run = .running ∧ s.pc + 1 = (s.readReg 1#4).toNat ∧ s.pc + 1 ≤ 255) ∧
    (let s : State := { State.reset with pc := 0xFE, inputs := [0x7142#16] }
     s.run = .running ∧ s.pc = 0xFE ∧ s.inputs = 0x7142#16 :: [] ∧ (15#4 : RegIdx) ≠ 0#4) := by
  decide

theorem witness_CanonicalMemoriesWithEqualReadsAreEqual :
    Memory.wf [(0x00, 1#16), (0xFF, 5#16)] ∧
    ∀ a, Memory.read [(0x00, 1#16), (0xFF, 5#16)] a = Memory.read [(0x00, 1#16), (0xFF, 5#16)] a :=
  ⟨by decide, fun _ => rfl⟩

end Sys2Proof.Tests
end

section
/-! The signed reading and `pattern16` are inverse bijections between the words and
`[-32768, 32767]` (R9, R10). -/

namespace Sys2Proof.Machine

/-- The signed reading undoes `pattern16`, inside the range it is applied to (R10). -/
theorem signed16_pattern16 {v : Int} (h : -32768 ≤ v ∧ v ≤ 32767) :
    signed16 (pattern16 v) = v := by
  rw [signed16_eq_toInt, pattern16_eq_ofInt h]
  exact BitVec.toInt_ofInt_eq_self (by decide) h.1 (Int.lt_add_one_of_le h.2)

/-- R10: the pattern of `v` is `v` itself from 0 up, and 65536 more below 0. -/
theorem toNat_pattern16 {v : Int} (h : -32768 ≤ v ∧ v ≤ 32767) :
    ((pattern16 v).toNat : Int) = if 0 ≤ v then v else v + 65536 := by
  rw [pattern16_eq_ofInt h, BitVec.toNat_ofInt]
  split
  case isTrue hv => omega
  case isFalse hv => omega

/-- Settles O20: R9 is the definition, and the inverse laws are the two round trips. -/
theorem signedReadingAndPatternAreInverse : Obligations.SignedReadingAndPatternAreInverse := by
  unfold Obligations.SignedReadingAndPatternAreInverse
  refine ⟨fun w => rfl, fun w => ?_, fun v hlo hhi => ?_⟩
  · rw [signed16_eq_toInt]
    exact ⟨(toInt_range w).1, (toInt_range w).2, pattern16_toInt w⟩
  · exact ⟨signed16_pattern16 ⟨hlo, hhi⟩, toNat_pattern16 ⟨hlo, hhi⟩⟩

end Sys2Proof.Machine
end

section
/-! `WriteReg` and the protection of register 0 (R23). -/

namespace Sys2Proof.Machine

/-- Settles O16: register 0 raises on the unchanged state; any other register is set, and the commit
leaves the register file alone. -/
theorem writeRegProtectsRegisterZero : Obligations.WriteRegProtectsRegisterZero := by
  unfold Obligations.WriteRegProtectsRegisterZero
  intro s i v n
  constructor
  case left =>
    rintro rfl
    exact writeReg_zero s v n
  case right =>
    intro hi
    refine ⟨writeReg_ne_zero s v n hi, ?_, fun j hj => ?_⟩
    · rw [commit_readReg, readReg_setReg_same]
    · rw [commit_readReg, readReg_setReg_other s v hj]

end Sys2Proof.Machine
end

section
/-! The input port (R53), and that nothing but `LD Rd, 0xFF` reads it (R54). -/

namespace Sys2Proof.Machine

/-- The port read when a word is offered (R53): the converse of `inPort_cases`. -/
theorem inPort_of_inputs_cons {s : State} {w : Word} {rest : List Word}
    (h : s.inputs = w :: rest) :
    s.inPort = some (w, { s with mem := s.mem.write Config.ioAddr w, inputs := rest
                                 trace := s.trace ++ [.input w] }) := by
  simp [State.inPort, State.emit, h]

/-- Settles O30: the port answers nothing exactly while nothing is offered; the state it leaves
otherwise differs in one cell, the words offered and the trace. -/
theorem inPortTakesOneOfferedWord : Obligations.InPortTakesOneOfferedWord := by
  unfold Obligations.InPortTakesOneOfferedWord
  intro s
  constructor
  case left => exact inPort_eq_none_iff.mpr
  case right =>
    intro w rest hin
    have hcell : (s.mem.write Config.ioAddr w).read 0xFF#8 = w := read_write_same _ _ _
    have hother : ∀ a, a ≠ 0xFF#8 → (s.mem.write Config.ioAddr w).read a = s.mem.read a :=
      fun _ ha => read_write_other _ _ ha
    exact ⟨_, inPort_of_inputs_cons hin, hcell, hother, rfl, rfl, rfl, rfl, rfl, rfl⟩

/-- No plain effect takes an offered word. -/
theorem PlainEffect.inputs_eq {i : Instr} {s t : State} (h : PlainEffect i s t) :
    t.inputs = s.inputs := by
  cases h with
  | halts ign hi => rfl
  | raises k x hx hi => rw [takeFault_inputs]
  | writes d v n hd hi hn => rw [commit_inputs, setReg_inputs]
  | stores a v hi hw => rw [commit_inputs, memWrite_inputs]
  | moves n hi hn => rw [commit_inputs]

/-- `LDI` from an address that exists (R163, R165) is the register write of the cell's stored
content, by a plain read. -/
theorem exec_ldi_of_indirectAddr {s : State} {rt : RegIdx} {a : Addr} (d : RegIdx) (ign : BitVec 4)
    (h : indirectAddr (s.readReg rt) = some a) :
    exec (.ldi d rt ign) s = writeReg s d (s.memRead a) (s.pc + 1) := by
  simp [exec, execLdi, h]

/-- Settles O35: every effect but the port read keeps the words offered, and both `LDI` and the fetch
go through the plain read. -/
theorem noOtherReadTriggersTheInputPort : Obligations.NoOtherReadTriggersTheInputPort := by
  unfold Obligations.NoOtherReadTriggersTheInputPort
  refine ⟨fun i s t hexec htaken => ?_, fun d rt ign s hrt hd => ?_, fun s hrun hpc => ?_⟩
  · rcases exec_next_cases hexec with ⟨hplain, _⟩ | ⟨d, _, _, hi, _⟩
    · exact absurd hplain.inputs_eq htaken
    · exact ⟨d, hi⟩
  · have haddr : indirectAddr (s.readReg rt) = some 0xFF#8 :=
      indirectAddr_eq_some_iff.mpr (by rw [hrt]; rfl)
    rw [exec_ldi_of_indirectAddr d ign haddr, writeReg_ne_zero s _ _ hd]
  · rw [step_running hrun (Nat.le_of_eq hpc), hpc]

end Sys2Proof.Machine
end

section
/-! The fields of a word as quotients of its number (R8, R80), and decoding stated in them (R86). -/

namespace Sys2Proof

/-- Bits `j` and up of a word are its number divided by `2 ^ j`; a field keeps the lowest of them. -/
theorem extract_eq_ofNat_div (w : Word) (j l : Nat) :
    w.extractLsb' j l = BitVec.ofNat l (w.toNat / 2 ^ j) := by
  rw [BitVec.extractLsb', Nat.shiftRight_eq_div_pow]

theorem fieldOp_eq_ofNat (w : Word) : fieldOp w = BitVec.ofNat 4 (w.toNat / 4096) :=
  extract_eq_ofNat_div w 12 4

theorem fieldD_eq_ofNat (w : Word) : fieldD w = BitVec.ofNat 4 (w.toNat / 256) :=
  extract_eq_ofNat_div w 8 4

theorem fieldS_eq_ofNat (w : Word) : fieldS w = BitVec.ofNat 4 (w.toNat / 16) :=
  extract_eq_ofNat_div w 4 4

theorem fieldT_eq_ofNat (w : Word) : fieldT w = BitVec.ofNat 4 w.toNat := rfl

theorem fieldAddr_eq_ofNat (w : Word) : fieldAddr w = BitVec.ofNat 8 w.toNat := rfl

theorem fieldLow12_eq_ofNat (w : Word) : fieldLow12 w = BitVec.ofNat 12 w.toNat := rfl

/-- Settles O6: each field function is the arithmetic reading of its bits, and a known opcode nibble
leaves one row of the decoder's table. -/
theorem decodeSplitsTheWordIntoItsFields : Obligations.DecodeSplitsTheWordIntoItsFields := by
  unfold Obligations.DecodeSplitsTheWordIntoItsFields
  intro w
  rw [← fieldD_eq_ofNat, ← fieldS_eq_ofNat, ← fieldT_eq_ofNat, ← fieldAddr_eq_ofNat,
    ← fieldLow12_eq_ofNat]
  and_intros
  all_goals
    intro hop
    have hnibble := fieldOp_eq_ofNat w
    rw [hop] at hnibble
    rw [decode_by_op, hnibble]
    rfl

end Sys2Proof
end

section
/-! The engine's states (R100) and its fetch (R102). -/

namespace Sys2Proof.Machine

/-- Settles O9: the fetch of a Running state at an address of memory is `step_running`. -/
theorem stepRunsTheDecodedWord : Obligations.StepRunsTheDecodedWord := by
  unfold Obligations.StepRunsTheDecodedWord
  rintro s i hrun hpc rfl
  exact step_running hrun hpc

/-- Halted and Faulted are terminal (R100). -/
theorem step_of_not_running {s : State} (h : s.run ≠ .running) : step s = .fault .terminal := by
  cases hrun : s.run with
  | running => exact absurd hrun h
  | halted => simp [step, hrun]
  | faulted => simp [step, hrun]

/-- While Running no fault is recorded (R229). -/
theorem State.Inv.noFault_of_running {s : State} (h : s.Inv) (hrun : s.run = .running) :
    s.fault.kind = .noFault := by
  by_contra hkind
  exact absurd (hrun.symm.trans (h.faultRecorded.mpr hkind)) (by decide)

/-- How an instruction ends, as far as the engine's state goes: `HLT` halts (R190), a fatal error
ends the run at the unchanged pc (R108), and anything else reaches the commit and its halt test
(R106). -/
inductive Ending (i : Instr) (s t : State) : Prop where
  | halts (ign : BitVec 12) (hi : i = .hlt ign) (hrun : t.run = .halted)
      (hfault : t.fault = s.fault) : Ending i s t
  | raises (hi : ∀ ign, i ≠ .hlt ign) (hrun : t.run = .faulted) (hpc : t.pc = s.pc)
      (hkind : t.fault.kind ≠ .noFault) : Ending i s t
  | commits (hi : ∀ ign, i ≠ .hlt ign) (hrun : t.run = if 255 < t.pc then .halted else s.run)
      (hfault : t.fault = s.fault) : Ending i s t

/-- `HLT` raises nothing (R190, R220). -/
theorem MayRaise.ne_hlt {i : Instr} {k : FaultKind} (h : MayRaise i k) : ∀ ign, i ≠ .hlt ign := by
  rintro ign rfl
  cases k <;> simp [MayRaise, Instr.opcode, regWritten] at h

/-- A kind that is raised is not the reset value (R220). -/
theorem MayRaise.kind_ne_noFault {i : Instr} {k : FaultKind} (h : MayRaise i k) : k ≠ .noFault := by
  rintro rfl
  exact h

/-- A plain effect is one of the three endings. -/
theorem PlainEffect.ending {i : Instr} {s t : State} (h : PlainEffect i s t) : Ending i s t := by
  cases h with
  | halts ign hi => exact .halts ign hi rfl rfl
  | raises k x hx hi => exact .raises hi.ne_hlt rfl rfl hi.kind_ne_noFault
  | writes d v n hd hi hn => exact .commits (by rintro ign rfl; cases hi) rfl rfl
  | stores a v hi hw =>
    exact .commits (by rintro ign rfl; cases hi) (by rw [commit_run, memWrite_run]; rfl)
      (by rw [commit_fault, memWrite_fault])
  | moves n hi hn => exact .commits (by rintro ign rfl; simp [Instr.opcode] at hi) rfl rfl

/-- Everything `exec` answers next is one of the three endings: the port read before the register
write of `LD Rd, 0xFF` (R161) touches neither the run status, the pc nor the fault record. -/
theorem exec_ending {i : Instr} {s t : State} (h : exec i s = .next t) : Ending i s t := by
  rcases exec_next_cases h with ⟨hplain, _⟩ | ⟨d, w, s', rfl, hin, hend⟩
  · exact hplain.ending
  · have hld : ∀ ign, Instr.ld d Config.ioAddr ≠ .hlt ign := by simp
    obtain ⟨rest, _, rfl⟩ := inPort_cases hin
    rcases hend with ⟨_, rfl⟩ | ⟨_, rfl⟩
    · exact .raises hld rfl rfl (by simp)
    · exact .commits hld rfl rfl

/-- From a Running state at an address of memory, an instruction halts the run exactly when it is
`HLT` or it goes past the top of memory (R100, R106). -/
theorem Ending.halted_iff {i : Instr} {s t : State} (h : Ending i s t) (hrun : s.run = .running)
    (hpc : s.pc ≤ 255) : t.run = .halted ↔ (∃ ign, i = .hlt ign) ∨ 255 < t.pc := by
  cases h with
  | halts ign hi ht _ => exact iff_of_true ht (.inl ⟨ign, hi⟩)
  | raises hi ht htpc _ => simp [hi, ht, htpc, hpc]
  | commits hi ht _ => simp [hi, ht, hrun]

/-- From a Running state without a fault recorded, an instruction ends the run Faulted exactly when
it records one (R100, R108). -/
theorem Ending.faulted_iff {i : Instr} {s t : State} (h : Ending i s t) (hrun : s.run = .running)
    (hs : s.fault.kind = .noFault) : t.run = .faulted ↔ t.fault.kind ≠ .noFault := by
  cases h with
  | halts _ _ ht hfault => simp [ht, hfault, hs]
  | raises _ ht _ hkind => exact iff_of_true ht hkind
  | commits _ ht hfault => rw [ht, hfault, hrun]; split <;> simp [hs]

/-- Settles O11: the endings of the instruction at the pc say how the run status changes. -/
theorem engineStatesChangeOnlyAsTheSpecSays :
    Obligations.EngineStatesChangeOnlyAsTheSpecSays := by
  unfold Obligations.EngineStatesChangeOnlyAsTheSpecSays
  refine ⟨rfl, fun s hs => step_of_not_running hs, fun s t hinv hstep => ?_⟩
  obtain ⟨hrun, hpc, hexec⟩ := step_next_cases hstep
  have hend := exec_ending hexec
  exact ⟨hrun, hend.halted_iff hrun hpc, hend.faulted_iff hrun (hinv.noFault_of_running hrun)⟩

end Sys2Proof.Machine
end

section
/-! The end of every ALU instruction (R131, R132), and `ADD` (R133). -/

namespace Sys2Proof.Machine

/-- R131: a result outside the range raises, whatever the destination. -/
theorem aluWrite_of_outside (s : State) (d : RegIdx) {r : Int} (h : r < -32768 ∨ 32767 < r) :
    aluWrite s d r = .next (s.takeFault .arithmeticOverflow (some r)) := by
  have hr : inSignedRange r = false := (inSignedRange_eq_false_iff r).mpr (by omega)
  simp [aluWrite, raise, hr]

/-- R132: a result inside the range goes to the register write, register 0's protection included. -/
theorem aluWrite_of_inside (s : State) (d : RegIdx) {r : Int} (h : -32768 ≤ r ∧ r ≤ 32767) :
    aluWrite s d r = writeReg s d (pattern16 r) (s.pc + 1) :=
  if_pos ((inSignedRange_iff r).mpr h)

theorem aluWrite_zero_of_inside (s : State) {r : Int} (h : -32768 ≤ r ∧ r ≤ 32767) :
    aluWrite s 0#4 r = .next (s.takeFault .reservedRegisterWrite none) := by
  rw [aluWrite_of_inside s 0#4 h, writeReg_zero]

theorem aluWrite_ne_zero_of_inside (s : State) {d : RegIdx} {r : Int}
    (h : -32768 ≤ r ∧ r ≤ 32767) (hd : d ≠ 0#4) :
    aluWrite s d r = .next ((s.setReg d (pattern16 r)).commit (s.pc + 1)) := by
  rw [aluWrite_of_inside s d h, writeReg_ne_zero s _ _ hd]

/-- Settles O21: the range test decides first, then the destination; the word written reads back as
the exact result. -/
theorem aluResultIsValidatedThenWritten : Obligations.AluResultIsValidatedThenWritten := by
  unfold Obligations.AluResultIsValidatedThenWritten
  refine fun s d r => ⟨aluWrite_of_outside s d, fun hlo hhi hd => ?_, fun hlo hhi hd => ?_⟩
  · rw [hd, aluWrite_zero_of_inside s ⟨hlo, hhi⟩]
  · have hread : (pattern16 r).toInt = r := by
      rw [← signed16_eq_toInt, signed16_pattern16 ⟨hlo, hhi⟩]
    exact ⟨pattern16 r, hread, aluWrite_ne_zero_of_inside s ⟨hlo, hhi⟩ hd⟩

/-- The exact sum of two signed readings, when it fits, is the sum of the words: the wrap-around of
word addition drops out. -/
theorem pattern16_add (a b : Word) (h : -32768 ≤ a.toInt + b.toInt ∧ a.toInt + b.toInt ≤ 32767) :
    pattern16 (a.toInt + b.toInt) = a + b := by
  rw [pattern16_eq_ofInt h, BitVec.ofInt_add, BitVec.ofInt_toInt, BitVec.ofInt_toInt]

/-- `ADD` with its operands in the library's signed reading (R130, R133). -/
theorem exec_add (d rs rt : RegIdx) (s : State) :
    exec (.add d rs rt) s = aluWrite s d ((s.readReg rs).toInt + (s.readReg rt).toInt) := by
  simp [exec, execAdd]

/-- Settles O22: `ADD` ends as every ALU instruction does, and a sum that fits is the word sum. -/
theorem addWritesTheExactSum : Obligations.AddWritesTheExactSum := by
  unfold Obligations.AddWritesTheExactSum
  intro d rs rt s r
  rw [exec_add]
  refine ⟨aluWrite_of_outside s d, fun hlo hhi hd => ?_, fun hlo hhi hd => ?_⟩
  · rw [hd, aluWrite_zero_of_inside s ⟨hlo, hhi⟩]
  · rw [aluWrite_ne_zero_of_inside s ⟨hlo, hhi⟩ hd, pattern16_add _ _ ⟨hlo, hhi⟩]

end Sys2Proof.Machine
end

section
/-! `LDA` (R160) and `ST` (R162). -/

namespace Sys2Proof.Machine

/-- Zero extension keeps the number of the byte (R11). -/
theorem zext16_eq_ofNat (b : Addr) : zext16 b = BitVec.ofNat 16 b.toNat :=
  (BitVec.ofNat_toNat 16 b).symm

/-- `LDA` is the register write of its byte, zero-extended (R83, R160). -/
theorem exec_lda (d : RegIdx) (addr : Addr) (s : State) :
    exec (.lda d addr) s = writeReg s d (BitVec.ofNat 16 addr.toNat) (s.pc + 1) := by
  rw [← zext16_eq_ofNat]
  rfl

/-- Settles O28: the register write decides between the fatal error and the byte. -/
theorem ldaWritesTheZeroExtendedByte : Obligations.LdaWritesTheZeroExtendedByte := by
  unfold Obligations.LdaWritesTheZeroExtendedByte
  intro d addr s
  rw [exec_lda]
  constructor
  case left =>
    rintro rfl
    exact writeReg_zero s _ _
  case right =>
    intro hd
    exact writeReg_ne_zero s _ _ hd

/-- `ST` is the store of its register and then the commit, in every state (R162). -/
theorem exec_st (d : RegIdx) (addr : Addr) (s : State) :
    exec (.st d addr) s = .next ((s.memWrite addr (s.readReg d)).commit (s.pc + 1)) := rfl

/-- Settles O32: the store gives the cells and the event, the commit the pc and the halt test;
neither touches anything else. -/
theorem stStoresTheRegister : Obligations.StStoresTheRegister := by
  unfold Obligations.StStoresTheRegister
  intro d addr s
  refine ⟨_, exec_st d addr s, ?cell, fun b hb => ?others, ?trace, ?regs, ?inputs, ?fault,
    commit_pc _ _, ?run⟩
  case cell => rw [commit_memRead, memRead_memWrite_same]
  case others => rw [commit_memRead, memRead_memWrite_other s _ hb]
  case trace => exact memWrite_trace s _ addr
  case regs => rw [commit_regs, memWrite_regs]
  case inputs => rw [commit_inputs, memWrite_inputs]
  case fault => rw [commit_fault, memWrite_fault]
  case run => rw [commit_run, memWrite_run, Config.topAddr]

end Sys2Proof.Machine
end

section
/-! Control flow: `HLT` (R190), the branches `BZ` and `BP` (R191, R192) and `JL` (R194). -/

namespace Sys2Proof.Machine

/-- A commit of an address of memory does not halt: only the pc changes (R106, R195). -/
theorem commit_addr (s : State) (addr : Addr) :
    s.commit addr.toNat = { s with pc := addr.toNat } := by
  have hin : ¬ Config.topAddr < addr.toNat := by
    have := addr.isLt
    rw [Config.topAddr]
    omega
  rw [State.commit, if_neg hin]

/-- `HLT` halts the run, whatever its ignored bits (R190). -/
theorem exec_hlt (ign : BitVec 12) (s : State) :
    exec (.hlt ign) s = .next { s with run := .halted } := rfl

/-- Settles O37: the equation of `HLT` says it all. -/
theorem hltHaltsAndChangesNothingElse : Obligations.HltHaltsAndChangesNothingElse := exec_hlt

/-- `BZ` is a commit of one of two pcs, by the library's signed reading (R191). -/
theorem exec_bz (d : RegIdx) (addr : Addr) (s : State) :
    exec (.bz d addr) s =
      .next (s.commit (if (s.readReg d).toInt = 0 then addr.toNat else s.pc + 1)) := by
  simp [exec, execBz, isZero]

/-- Settles O38: the commit of the target only sets the pc. -/
theorem bzBranchesOnZero : Obligations.BzBranchesOnZero := by
  unfold Obligations.BzBranchesOnZero
  intro d addr s
  rw [exec_bz]
  constructor
  case left =>
    intro hzero
    rw [if_pos hzero, commit_addr]
  case right =>
    intro hne
    rw [if_neg hne]

/-- R192: the words of positive signed value are `0x0001` to `0x7FFF`. -/
theorem toInt_pos_iff_toNat (w : Word) :
    0 < w.toInt ↔ 0x0001 ≤ w.toNat ∧ w.toNat ≤ 0x7FFF := by
  have := w.isLt
  rw [BitVec.toInt_eq_toNat_cond]
  split <;> omega

/-- `BP` is a commit of one of two pcs, by the library's signed reading (R192). -/
theorem exec_bp (d : RegIdx) (addr : Addr) (s : State) :
    exec (.bp d addr) s =
      .next (s.commit (if 0 < (s.readReg d).toInt then addr.toNat else s.pc + 1)) := by
  simp [exec, execBp]

/-- Settles O39: the range test on the unsigned value is the sign test, and the commit of the target
only sets the pc. -/
theorem bpBranchesOnPositive : Obligations.BpBranchesOnPositive := by
  unfold Obligations.BpBranchesOnPositive
  intro d addr s
  rw [exec_bp]
  constructor
  case left =>
    intro hlo hhi
    rw [if_pos ((toInt_pos_iff_toNat _).mpr ⟨hlo, hhi⟩), commit_addr]
  case right =>
    intro hout
    have hpos : ¬ 0 < (s.readReg d).toInt := by
      rw [toInt_pos_iff_toNat]
      omega
    rw [if_neg hpos]

/-- `JL` is the register write of its own address, zero-extended from 8 bits, and then the commit of
the target (R194). -/
theorem exec_jl (d : RegIdx) (addr : Addr) {s : State} (hpc : s.pc ≤ 255) :
    exec (.jl d addr) s = writeReg s d (BitVec.ofNat 16 s.pc) addr.toNat := by
  have hbyte : (BitVec.ofNat 8 s.pc).toNat = s.pc := by
    rw [BitVec.toNat_ofNat]
    omega
  have hword : zext16 (BitVec.ofNat 8 s.pc) = BitVec.ofNat 16 s.pc := by
    rw [zext16_eq_ofNat, hbyte]
  rw [← hword]
  rfl

/-- Settles O41: the register write decides between the fatal error and the jump, whose commit only
sets the pc. -/
theorem jlSavesItsOwnAddress : Obligations.JlSavesItsOwnAddress := by
  unfold Obligations.JlSavesItsOwnAddress
  intro d addr s hpc
  rw [exec_jl d addr hpc]
  constructor
  case left =>
    rintro rfl
    exact writeReg_zero s _ _
  case right =>
    intro hd
    rw [writeReg_ne_zero s _ _ hd, commit_addr]

end Sys2Proof.Machine
end

section
/-! Decoding and encoding are inverse to each other (R80, R86), and an ignored field changes nothing
(R88). -/

namespace Sys2Proof

/-- Settles O5: the round trip of each instruction. -/
theorem decodeOfEncodeIsTheInstruction : Obligations.DecodeOfEncodeIsTheInstruction := by
  unfold Obligations.DecodeOfEncodeIsTheInstruction
  intro i
  cases i with
  | hlt ign => exact Laws.RoundTrip.hlt ign
  | add d s t => exact Laws.RoundTrip.add d s t
  | sub d s t => exact Laws.RoundTrip.sub d s t
  | and d s t => exact Laws.RoundTrip.and d s t
  | xor d s t => exact Laws.RoundTrip.xor d s t
  | shl d s t => exact Laws.RoundTrip.shl d s t
  | shr d s t => exact Laws.RoundTrip.shr d s t
  | lda d addr => exact Laws.RoundTrip.lda d addr
  | ld d addr => exact Laws.RoundTrip.ld d addr
  | st d addr => exact Laws.RoundTrip.st d addr
  | ldi d t ign => exact Laws.RoundTrip.ldi d t ign
  | sti d t ign => exact Laws.RoundTrip.sti d t ign
  | bz d addr => exact Laws.RoundTrip.bz d addr
  | bp d addr => exact Laws.RoundTrip.bp d addr
  | jr d ign => exact Laws.RoundTrip.jr d ign
  | jl d addr => exact Laws.RoundTrip.jl d addr

/-- A pattern cut in two and joined again. -/
theorem join_extracts {m n : Nat} (x : BitVec (m + n)) :
    x.extractLsb' n m ++ x.extractLsb' 0 n = x := by
  apply BitVec.eq_of_getLsbD_eq
  intro k hk
  rw [getLsbD_joined]
  by_cases hlow : k < n
  · simp [hlow]
  · have hsum : n + (k - n) = k := by omega
    have hhigh : k - n < m := by omega
    simp [hlow, hsum, hhigh]

theorem join_fieldD_fieldAddr (w : Word) : fieldD w ++ fieldAddr w = fieldLow12 w := by
  rw [fieldD_of_low12, fieldAddr_of_low12]
  exact join_extracts (m := 4) (n := 8) (fieldLow12 w)

theorem join_fieldS_fieldT (w : Word) : fieldS w ++ fieldT w = fieldAddr w := by
  have hs : fieldS w = (fieldAddr w).extractLsb' 4 4 :=
    (extract_extract w (j := 0) (l := 8) (j' := 4) (l' := 4) (by decide)).symm
  have ht : fieldT w = (fieldAddr w).extractLsb' 0 4 :=
    (extract_extract w (j := 0) (l := 8) (j' := 0) (l' := 4) (by decide)).symm
  rw [hs, ht]
  exact join_extracts (m := 4) (n := 4) (fieldAddr w)

theorem join_fieldD_fieldS_fieldT (w : Word) :
    (fieldD w ++ fieldS w ++ fieldT w : BitVec 12) = fieldLow12 w := by
  rw [← join_fieldD_fieldAddr, ← join_fieldS_fieldT]
  exact BitVec.append_assoc

theorem nibble_of_bits :
    ∀ op : BitVec 4, op = BitVec.ofBoolListBE [op[3], op[2], op[1], op[0]] := by
  decide

/-- The decoder picks the row of the opcode map that the nibble `w[15:12]` names (R86). -/
theorem opcode_decode (w : Word) : (decode w).opcode = fieldOp w := by
  have hbits := nibble_of_bits (fieldOp w)
  rw [decode_by_op]
  split
  all_goals
    next h3 h2 h1 h0 =>
      rw [h3, h2, h1, h0] at hbits
      exact hbits.symm

/-- The fields of the decoded instruction are the low 12 bits of the word, none lost (R82). -/
theorem low12_decode (w : Word) : (decode w).low12 = fieldLow12 w := by
  unfold decode
  split <;>
    simp only [Instr.low12, join_fieldD_fieldAddr, join_fieldD_fieldS_fieldT]

/-- Settles O4: the opcode nibble and the low 12 bits both come back. -/
theorem encodeOfDecodeIsTheWord : Obligations.EncodeOfDecodeIsTheWord := by
  unfold Obligations.EncodeOfDecodeIsTheWord
  intro w
  rw [encode, opcode_decode, low12_decode]
  exact join_extracts (m := 4) (n := 12) w

namespace Machine

/-- The meanings do not receive the ignored field (R88). -/
theorem exec_canonical (i : Instr) (s : State) : exec i.canonical s = exec i s := by
  cases i <;> rfl

/-- The words up to `0x0FFF` are those of opcode 0 (R86). -/
theorem decode_le_0x0FFF {w : Word} (h : w.toNat ≤ 0x0FFF) : decode w = .hlt (fieldLow12 w) := by
  obtain ⟨hhlt, -⟩ := decodeSplitsTheWordIntoItsFields w
  exact hhlt (by omega)

/-- Settles O8: both words run as their common form with the ignored field cleared. -/
theorem ignoredFieldsChangeNothing : Obligations.IgnoredFieldsChangeNothing := by
  unfold Obligations.IgnoredFieldsChangeNothing
  refine ⟨fun v w s h => ?_, fun w s h => ?_⟩
  · rw [← exec_canonical, h, exec_canonical]
  · rw [decode_le_0x0FFF h, exec_hlt]

/-- Settles O7: each word is decoded by its nibbles. -/
theorem specExampleWordsDecode : Obligations.SpecExampleWordsDecode := by
  unfold Obligations.SpecExampleWordsDecode
  decide

/-- Settles O10: the word placed is the word fetched, and the table's reading of it is the
decoder's. -/
theorem wordPlacedAtThePcRunsNext : Obligations.WordPlacedAtThePcRunsNext := by
  unfold Obligations.WordPlacedAtThePcRunsNext
  intro s nbits w i hrun hpc hrow
  have hi : decode (tableWord nbits w) = i := by
    unfold decodeTableWord at hrow
    split at hrow
    · exact Option.some.inj hrow
    · cases hrow
  have hfetch : (s.withFetchWord nbits w).memRead (BitVec.ofNat 8 s.pc) = tableWord nbits w :=
    read_write_same _ _ _
  have hstep : step (s.withFetchWord nbits w) =
      exec (decode ((s.withFetchWord nbits w).memRead (BitVec.ofNat 8 s.pc)))
        (s.withFetchWord nbits w) :=
    step_running hrun hpc
  rw [hstep, hfetch, hi]

end Machine
end Sys2Proof
end

section
/-! The remaining ALU instructions (R134 to R139). -/

namespace Sys2Proof.Machine

/-- `WriteReg` by its destination (R23), the form in which the instructions that end in it are
stated. -/
theorem writeReg_by_dest (s : State) (d : RegIdx) (v : Word) (n : Nat) :
    (d = 0#4 → writeReg s d v n = .next (s.takeFault .reservedRegisterWrite none)) ∧
    (d ≠ 0#4 → writeReg s d v n = .next ((s.setReg d v).commit n)) := by
  refine ⟨?_, writeReg_ne_zero s v n⟩
  rintro rfl
  exact writeReg_zero s v n

/-- The end of an ALU instruction (R131, R132) whose result, when it fits, is the word `v`. -/
theorem aluWrite_by_range (s : State) (d : RegIdx) {r : Int} {v : Word}
    (hv : -32768 ≤ r ∧ r ≤ 32767 → pattern16 r = v) :
    ((r < -32768 ∨ 32767 < r) →
      aluWrite s d r = .next (s.takeFault .arithmeticOverflow (some r))) ∧
    (-32768 ≤ r → r ≤ 32767 → d = 0#4 →
      aluWrite s d r = .next (s.takeFault .reservedRegisterWrite none)) ∧
    (-32768 ≤ r → r ≤ 32767 → d ≠ 0#4 →
      aluWrite s d r = .next ((s.setReg d v).commit (s.pc + 1))) := by
  refine ⟨aluWrite_of_outside s d, fun hlo hhi hd => ?_, fun hlo hhi hd => ?_⟩
  · rw [hd, aluWrite_zero_of_inside s ⟨hlo, hhi⟩]
  · rw [aluWrite_ne_zero_of_inside s ⟨hlo, hhi⟩ hd, hv ⟨hlo, hhi⟩]

/-- The signed reading of a word is in range, so as an ALU result it is that word's register
write. -/
theorem aluWrite_toInt (s : State) (d : RegIdx) (w : Word) :
    aluWrite s d w.toInt = writeReg s d w (s.pc + 1) := by
  rw [aluWrite_of_inside s d (toInt_range w), pattern16_toInt]

/-- The exact difference of two signed readings, when it fits, is the difference of the words. -/
theorem pattern16_sub (a b : Word) (h : -32768 ≤ a.toInt - b.toInt ∧ a.toInt - b.toInt ≤ 32767) :
    pattern16 (a.toInt - b.toInt) = a - b := by
  rw [pattern16_eq_ofInt h]
  apply BitVec.eq_of_toInt_eq
  rw [BitVec.toInt_ofInt, BitVec.toInt_sub]

/-- `SUB` with its operands in the library's signed reading (R130, R134). -/
theorem exec_sub (d rs rt : RegIdx) (s : State) :
    exec (.sub d rs rt) s = aluWrite s d ((s.readReg rs).toInt - (s.readReg rt).toInt) := by
  simp [exec, execSub]

/-- Settles O23: `SUB` ends as every ALU instruction does, and a difference that fits is the word
difference. -/
theorem subWritesTheExactDifference : Obligations.SubWritesTheExactDifference := by
  unfold Obligations.SubWritesTheExactDifference
  intro d rs rt s r
  rw [exec_sub]
  exact aluWrite_by_range s d (pattern16_sub _ _)

/-- `AND` is the register write of the words' AND (R135). -/
theorem exec_and (d rs rt : RegIdx) (s : State) :
    exec (.and d rs rt) s = writeReg s d (s.readReg rs &&& s.readReg rt) (s.pc + 1) := by
  rw [← aluWrite_toInt, ← intAnd_toInt]
  simp [exec, execAnd]

/-- Settles O24: the AND of two words is always in range, so the register write decides. -/
theorem andWritesTheBitwiseAnd : Obligations.AndWritesTheBitwiseAnd := by
  unfold Obligations.AndWritesTheBitwiseAnd
  intro d rs rt s
  rw [exec_and]
  exact writeReg_by_dest s d _ _

/-- `XOR` is the register write of the words' XOR (R136). -/
theorem exec_xor (d rs rt : RegIdx) (s : State) :
    exec (.xor d rs rt) s = writeReg s d (s.readReg rs ^^^ s.readReg rt) (s.pc + 1) := by
  rw [← aluWrite_toInt, ← intXor_toInt]
  simp [exec, execXor]

/-- Settles O25: the XOR of two words is always in range, so the register write decides. -/
theorem xorWritesTheBitwiseXor : Obligations.XorWritesTheBitwiseXor := by
  unfold Obligations.XorWritesTheBitwiseXor
  intro d rs rt s
  rw [exec_xor]
  exact writeReg_by_dest s d _ _

/-- A word of at least `0x8000` is a negative count (R9, R139). -/
theorem toInt_neg_iff_toNat (w : Word) : w.toInt < 0 ↔ 0x8000 ≤ w.toNat := by
  have := w.isLt
  rw [BitVec.toInt_eq_toNat_cond]
  split <;> omega

/-- A word below `0x8000` reads the same signed and unsigned (R9). -/
theorem toInt_toNat_of_lt {w : Word} (h : w.toNat < 0x8000) : w.toInt.toNat = w.toNat := by
  rw [BitVec.toInt_eq_toNat_cond, if_pos (by omega), Int.toNat_natCast]

/-- R139: a negative count raises before anything is shifted. -/
theorem shiftWrite_of_negative (s : State) (d : RegIdx) (f : Int → Nat → Int) (a : Int) {w : Word}
    (h : 0x8000 ≤ w.toNat) :
    shiftWrite s d f a w.toInt = .next (s.takeFault .shiftCountNegative (some w.toInt)) :=
  if_pos ((countNegative_iff _).mpr ((toInt_neg_iff_toNat w).mpr h))

/-- R139: any other count goes on to the shift, by the word read unsigned. -/
theorem shiftWrite_of_nonneg (s : State) (d : RegIdx) (f : Int → Nat → Int) (a : Int) {w : Word}
    (h : w.toNat < 0x8000) : shiftWrite s d f a w.toInt = aluWrite s d (f a w.toNat) := by
  have hneg : ¬ countNegative w.toInt = true := by
    rw [countNegative_iff, toInt_neg_iff_toNat]
    omega
  rw [shiftWrite, if_neg hneg, toInt_toNat_of_lt h]

/-- `SHL` with its operands in the library's signed reading (R130, R137). -/
theorem exec_shl (d rs rt : RegIdx) (s : State) :
    exec (.shl d rs rt) s = shiftWrite s d intShl (s.readReg rs).toInt (s.readReg rt).toInt := by
  simp [exec, execShl]

/-- Settles O26: the sign of the count decides first; then `SHL` ends as every ALU instruction does,
and a product that fits is the word shifted. -/
theorem shlMultipliesOrFaults : Obligations.ShlMultipliesOrFaults := by
  unfold Obligations.ShlMultipliesOrFaults
  intro d rs rt s b r
  have hr : intShl (s.readReg rs).toInt b = r := by
    simp only [intShl, r, Nat.cast_pow, Nat.cast_ofNat]
  obtain ⟨houtside, hzero, hinside⟩ :=
    aluWrite_by_range s d (pattern16_intShl (s.readReg rs) b)
  rw [hr] at houtside hzero hinside
  rw [exec_shl]
  refine ⟨shiftWrite_of_negative s d _ _, fun hb => ?_, fun hb => ?_, fun hb => ?_⟩
  all_goals rw [shiftWrite_of_nonneg s d _ _ hb, hr]
  · exact houtside
  · exact hzero
  · exact hinside

/-- `SHR` with its operands in the library's signed reading (R130, R138). -/
theorem exec_shr (d rs rt : RegIdx) (s : State) :
    exec (.shr d rs rt) s = shiftWrite s d intShr (s.readReg rs).toInt (s.readReg rt).toInt := by
  simp [exec, execShr]

/-- `SHR` by a count that is not negative is the register write of the arithmetic shift (R138). -/
theorem exec_shr_of_nonneg (d rs : RegIdx) {rt : RegIdx} {s : State}
    (h : (s.readReg rt).toNat < 0x8000) : exec (.shr d rs rt) s =
      writeReg s d ((s.readReg rs).sshiftRight (s.readReg rt).toNat) (s.pc + 1) := by
  rw [exec_shr, shiftWrite_of_nonneg s d _ _ h, intShr_toInt, aluWrite_toInt]

/-- Settles O27: the sign of the count decides first; the shifted word is always in range, so then
the register write decides. -/
theorem shrShiftsArithmeticallyOrFaults : Obligations.ShrShiftsArithmeticallyOrFaults := by
  unfold Obligations.ShrShiftsArithmeticallyOrFaults
  intro d rs rt s b
  refine ⟨fun hb => ?_, fun hb => ?_, fun hb => ?_⟩
  · rw [exec_shr, shiftWrite_of_negative s d _ _ hb]
  · rw [exec_shr_of_nonneg d rs hb]
    exact (writeReg_by_dest s d _ _).1
  · rw [exec_shr_of_nonneg d rs hb]
    exact (writeReg_by_dest s d _ _).2

end Sys2Proof.Machine
end

section
/-! The remaining transfers: `LD` (R161), `LDI` (R163) and `STI` (R164). -/

namespace Sys2Proof.Machine

/-- `LD` below the port is the register write of the cell's content (R161). -/
theorem exec_ld (d : RegIdx) {addr : Addr} (s : State) (h : addr ≠ Config.ioAddr) :
    exec (.ld d addr) s = writeReg s d (s.memRead addr) (s.pc + 1) := if_neg h

/-- Settles O29: the register write decides. -/
theorem ldReadsTheCell : Obligations.LdReadsTheCell := by
  unfold Obligations.LdReadsTheCell
  intro d addr s haddr
  rw [exec_ld d s haddr]
  exact writeReg_by_dest s d _ _

/-- The state after the port read of `w` (R53), with the words `rest` still offered. -/
def State.afterInput (s : State) (w : Word) (rest : List Word) : State :=
  { s with mem := s.mem.write Config.ioAddr w, inputs := rest, trace := s.trace ++ [.input w] }

/-- `LD Rd, 0xFF` waits while nothing is offered (R101). -/
theorem exec_ld_port_nil (d : RegIdx) {s : State} (h : s.inputs = []) :
    exec (.ld d Config.ioAddr) s = .fault .waiting := by
  simp [exec, execLd, inPort_eq_none_iff.mpr h]

/-- `LD Rd, 0xFF` with a word offered is the port read and then the register write of that word
(R53, R161). -/
theorem exec_ld_port_cons (d : RegIdx) {s : State} {w : Word} {rest : List Word}
    (h : s.inputs = w :: rest) :
    exec (.ld d Config.ioAddr) s = writeReg (s.afterInput w rest) d w (s.pc + 1) := by
  simp [exec, execLd, inPort_of_inputs_cons h, State.afterInput]

/-- Settles O31: the words offered decide between the wait and the port read, and after that the
register write decides. -/
theorem ldReadsTheInputPort : Obligations.LdReadsTheInputPort := by
  unfold Obligations.LdReadsTheInputPort
  refine fun d s => ⟨exec_ld_port_nil d, fun w rest hin hd => ?_, fun w rest hin hd => ?_⟩
  · exact (exec_ld_port_cons d hin).trans ((writeReg_by_dest _ d w _).2 hd)
  · exact (exec_ld_port_cons d hin).trans ((writeReg_by_dest _ d w _).1 hd)

/-- A word of at most `0x00FF` is an address, the one of the same number (R165). -/
theorem indirectAddr_of_le {v : Word} (h : v.toNat ≤ 0x00FF) :
    indirectAddr v = some (BitVec.ofNat 8 v.toNat) := by
  rw [indirectAddr_eq_some_iff, BitVec.toNat_ofNat]
  omega

/-- `LDI` from an address that does not exist raises (R165). -/
theorem exec_ldi_of_not_indirectAddr {s : State} {rt : RegIdx} (d : RegIdx) (ign : BitVec 4)
    (h : indirectAddr (s.readReg rt) = none) :
    exec (.ldi d rt ign) s =
      .next (s.takeFault .addressOutOfRange (some ((s.readReg rt).toNat : Int))) := by
  simp [exec, execLdi, h, raiseAddress, raise]

/-- Settles O33: the address check decides first, then the register write. -/
theorem ldiLoadsThroughTheRegister : Obligations.LdiLoadsThroughTheRegister := by
  unfold Obligations.LdiLoadsThroughTheRegister
  intro d rt ign s a
  refine ⟨fun ha => ?_, fun ha => ?_, fun ha => ?_⟩
  · exact exec_ldi_of_not_indirectAddr d ign (indirectAddr_eq_none_iff.mpr ha)
  · rw [exec_ldi_of_indirectAddr d ign (indirectAddr_of_le ha)]
    exact (writeReg_by_dest s d _ _).1
  · rw [exec_ldi_of_indirectAddr d ign (indirectAddr_of_le ha)]
    exact (writeReg_by_dest s d _ _).2

/-- `STI` to an address that exists is the `ST` to that address (R162, R164). -/
theorem exec_sti_of_indirectAddr {s : State} {rt : RegIdx} {a : Addr} (d : RegIdx) (ign : BitVec 4)
    (h : indirectAddr (s.readReg rt) = some a) : exec (.sti d rt ign) s = exec (.st d a) s := by
  simp [exec, execSti, execSt, h]

/-- `STI` to an address that does not exist raises (R165). -/
theorem exec_sti_of_not_indirectAddr {s : State} {rt : RegIdx} (d : RegIdx) (ign : BitVec 4)
    (h : indirectAddr (s.readReg rt) = none) :
    exec (.sti d rt ign) s =
      .next (s.takeFault .addressOutOfRange (some ((s.readReg rt).toNat : Int))) := by
  simp [exec, execSti, h, raiseAddress, raise]

/-- Settles O34: the address check decides first; then everything is as for `ST`. -/
theorem stiStoresThroughTheRegister : Obligations.StiStoresThroughTheRegister := by
  unfold Obligations.StiStoresThroughTheRegister
  intro d rt ign s a
  constructor
  case left => exact fun ha => exec_sti_of_not_indirectAddr d ign (indirectAddr_eq_none_iff.mpr ha)
  case right =>
    intro ha
    have hport : BitVec.ofNat 8 a = 0xFF#8 ↔ a = 0xFF := by
      rw [← BitVec.toNat_inj, BitVec.toNat_ofNat, BitVec.toNat_ofNat]
      omega
    have hst := stStoresTheRegister d (BitVec.ofNat 8 a) s
    simp only [hport] at hst
    rwa [exec_sti_of_indirectAddr d ign (indirectAddr_of_le ha)]

end Sys2Proof.Machine
end

section
/-! The commit of the next pc (R106), `JR` (R193), the return from a `JL` (R196) and the
pseudo-instructions (R91). -/

namespace Sys2Proof.Machine

theorem commit_of_le (s : State) {n : Nat} (h : n ≤ 255) : s.commit n = { s with pc := n } := by
  have hin : ¬ Config.topAddr < n := Nat.not_lt.mpr h
  rw [State.commit, if_neg hin]

theorem commit_of_gt (s : State) {n : Nat} (h : 255 < n) :
    s.commit n = { s with pc := n, run := .halted } := by
  have hout : Config.topAddr < n := h
  rw [State.commit, if_pos hout]

/-- Settles O14: the halt test is the comparison with 255. -/
theorem commitSetsThePcAndHaltsPastTheTop : Obligations.CommitSetsThePcAndHaltsPastTheTop := by
  unfold Obligations.CommitSetsThePcAndHaltsPastTheTop
  exact fun s n => ⟨commit_of_le s, commit_of_gt s⟩

/-- `JR` is the commit of one past the register's unsigned value (R193). -/
theorem exec_jr (d : RegIdx) (ign : BitVec 8) (s : State) :
    exec (.jr d ign) s = .next (s.commit ((s.readReg d).toNat + 1)) := rfl

/-- Settles O40: the commit's halt test, one past the register. -/
theorem jrLandsOnePastTheRegister : Obligations.JrLandsOnePastTheRegister := by
  unfold Obligations.JrLandsOnePastTheRegister
  intro d ign s
  rw [exec_jr]
  refine ⟨fun h => ?_, fun h => ?_⟩
  · rw [commit_of_le s h]
  · rw [commit_of_gt s (Nat.lt_succ_of_le h)]

/-- Settles O42: the register holds the address of the `JL`, and `JR` goes one past it. -/
theorem callThenReturnLandsAfterTheCall : Obligations.CallThenReturnLandsAfterTheCall := by
  unfold Obligations.CallThenReturnLandsAfterTheCall
  intro d addr ign s t u hpc hd hcall hkept
  rw [exec_jl d addr hpc, writeReg_ne_zero s _ _ hd] at hcall
  cases hcall
  have hlink : (u.readReg d).toNat = s.pc := by
    rw [hkept, commit_readReg, readReg_setReg_same, BitVec.toNat_ofNat]
    omega
  rw [exec_jr, hlink]

/-- Settles O43: each is one real instruction, run where `R0` reads zero. -/
theorem pseudoInstructionsDoWhatTheySay : Obligations.PseudoInstructionsDoWhatTheySay := by
  unfold Obligations.PseudoInstructionsDoWhatTheySay
  intro s hinv
  have hzero : (s.readReg 0#4).toInt = 0 := by rw [hinv.regZero]; rfl
  refine ⟨fun addr => ?jmp, ?nop, fun d r hd => ?mov, fun d hd => ?clr⟩
  case jmp => exact (bzBranchesOnZero 0#4 addr s).1 hzero
  case nop => rw [pseudoNop, exec_bp, hzero, if_neg (Int.lt_irrefl 0)]
  case mov =>
    rw [pseudoMov, exec_add, hzero, Int.add_zero, aluWrite_toInt, writeReg_ne_zero s _ _ hd]
  case clr => exact (ldaWritesTheZeroExtendedByte d 0x00#8 s).2 hd

end Sys2Proof.Machine
end

section
/-! Reset (R39), the preload (R70) and the first step (R261 to R264). -/

namespace Sys2Proof.Machine

theorem readReg_reset (i : RegIdx) : State.reset.readReg i = 0#16 := by
  simp [State.readReg, State.reset]

/-- Settles O1: the register file is one word sixteen times over, and no cell is listed. -/
theorem resetLeavesEveryElementAtItsValue : Obligations.ResetLeavesEveryElementAtItsValue := by
  unfold Obligations.ResetLeavesEveryElementAtItsValue
  exact ⟨readReg_reset, fun _ => rfl, rfl, rfl, rfl, rfl⟩

/-- The memory after a preload of `image` (R70). -/
def Memory.load (m : Memory) (image : List (Addr × Word)) : Memory :=
  image.foldl (fun m p => m.write p.1 p.2) m

theorem memRead_preload (s : State) (image : List (Addr × Word)) (a : Addr) :
    (s.preload image).memRead a = (s.mem.load image).read a := rfl

/-- A cell the image does not name keeps its content. -/
theorem read_load_of_notMem {image : List (Addr × Word)} {a : Addr}
    (h : a ∉ image.map Prod.fst) (m : Memory) : (m.load image).read a = m.read a := by
  induction image generalizing m with
  | nil => rfl
  | cons p rest ih =>
    obtain ⟨hp, hrest⟩ := not_or.mp (mt List.mem_cons.mpr h)
    exact (ih hrest _).trans (read_write_other m p.2 hp)

/-- A cell the image names once takes the word given. -/
theorem read_load_of_mem {image : List (Addr × Word)} (hnodup : (image.map Prod.fst).Nodup)
    {p : Addr × Word} (hp : p ∈ image) (m : Memory) : (m.load image).read p.1 = p.2 := by
  induction image generalizing m with
  | nil => cases hp
  | cons q rest ih =>
    obtain ⟨hq, hrest⟩ := List.nodup_cons.mp hnodup
    rcases List.mem_cons.mp hp with rfl | hp
    · exact (read_load_of_notMem hq _).trans (read_write_same m p.1 p.2)
    · exact ih hrest hp _

/-- Settles O2: the cells by induction on the image; nothing else is part of a preload. -/
theorem preloadSetsExactlyTheNamedCells : Obligations.PreloadSetsExactlyTheNamedCells := by
  unfold Obligations.PreloadSetsExactlyTheNamedCells
  intro image s hnodup
  refine ⟨fun p hp => ?_, fun a ha => ?_, rfl, rfl, rfl, rfl, rfl, rfl⟩
  · rw [memRead_preload, read_load_of_mem hnodup hp]
  · rw [memRead_preload, read_load_of_notMem ha, State.memRead]

/-- The first step after the boot runs the word in cell `0x10` (R262). -/
theorem step_boot (image : List (Addr × Word)) (inputs : List Word) :
    step (State.boot image inputs) =
      exec (decode ((Memory.load [] image).read 0x10#8)) (State.boot image inputs) :=
  step_running rfl (by decide : Config.pcReset ≤ 255)

/-- Settles O3: cell `0x10` holds the image's word, or zero, which decodes to `HLT`. -/
theorem firstStepRunsCellSixteen : Obligations.FirstStepRunsCellSixteen := by
  unfold Obligations.FirstStepRunsCellSixteen
  intro image inputs hnodup
  rw [step_boot]
  refine ⟨fun w hw => ?_, fun hunnamed => ?_⟩
  · rw [read_load_of_mem hnodup hw]
  · have hempty : (Memory.load [] image).read 0x10#8 = 0#16 := read_load_of_notMem hunnamed []
    rw [hempty, decode_le_0x0FFF (by decide), exec_hlt]

end Sys2Proof.Machine
end

section
/-! When the engine has a step (R101), and where a completed instruction goes on (R105). -/

namespace Sys2Proof.Machine

theorem writeReg_answers (s : State) (d : RegIdx) (v : Word) (n : Nat) :
    ∃ t, writeReg s d v n = .next t := by
  unfold writeReg
  split
  · exact ⟨_, rfl⟩
  · exact ⟨_, rfl⟩

theorem aluWrite_answers (s : State) (d : RegIdx) (r : Int) : ∃ t, aluWrite s d r = .next t := by
  unfold aluWrite
  split
  · exact writeReg_answers s d _ _
  · exact ⟨_, rfl⟩

theorem shiftWrite_answers (s : State) (d : RegIdx) (f : Int → Nat → Int) (a b : Int) :
    ∃ t, shiftWrite s d f a b = .next t := by
  unfold shiftWrite
  split
  · exact ⟨_, rfl⟩
  · exact aluWrite_answers s d _

/-- An input request the host has not met (R101). -/
def UnmetRequest (i : Instr) (s : State) : Prop := (∃ d, i = .ld d Config.ioAddr) ∧ s.inputs = []

theorem exec_of_unmetRequest {i : Instr} {s : State} (h : UnmetRequest i s) :
    exec i s = .fault .waiting := by
  obtain ⟨⟨d, rfl⟩, hin⟩ := h
  exact exec_ld_port_nil d hin

/-- An `LD` that is not waiting ends in a register write, on the state before or on the state after
the port read (R161). -/
theorem exec_ld_eq_writeReg {d : RegIdx} {addr : Addr} {s : State}
    (h : ¬ UnmetRequest (.ld d addr) s) :
    ∃ s' v, exec (.ld d addr) s = writeReg s' d v (s.pc + 1) := by
  by_cases haddr : addr = Config.ioAddr
  · subst haddr
    cases hin : s.inputs with
    | nil => exact absurd ⟨⟨d, rfl⟩, hin⟩ h
    | cons w rest => exact ⟨_, w, exec_ld_port_cons d hin⟩
  · exact ⟨s, _, exec_ld d s haddr⟩

/-- Every instruction but an unmet input request answers a next state (R101, R112). -/
theorem exec_answers {i : Instr} {s : State} (h : ¬ UnmetRequest i s) :
    ∃ t, exec i s = .next t := by
  cases i with
  | hlt ign => exact ⟨_, rfl⟩
  | add d rs rt => exact aluWrite_answers s d _
  | sub d rs rt => exact aluWrite_answers s d _
  | and d rs rt => exact aluWrite_answers s d _
  | xor d rs rt => exact aluWrite_answers s d _
  | shl d rs rt => exact shiftWrite_answers s d _ _ _
  | shr d rs rt => exact shiftWrite_answers s d _ _ _
  | lda d addr => exact writeReg_answers s d _ _
  | ld d addr =>
    obtain ⟨s', v, hld⟩ := exec_ld_eq_writeReg h
    rw [hld]
    exact writeReg_answers s' d v _
  | st d addr => exact ⟨_, rfl⟩
  | ldi d rt ign =>
    cases ha : indirectAddr (s.readReg rt) with
    | none => exact ⟨_, exec_ldi_of_not_indirectAddr d ign ha⟩
    | some a =>
      rw [exec_ldi_of_indirectAddr d ign ha]
      exact writeReg_answers s d _ _
  | sti d rt ign =>
    cases ha : indirectAddr (s.readReg rt) with
    | none => exact ⟨_, exec_sti_of_not_indirectAddr d ign ha⟩
    | some a => exact ⟨_, exec_sti_of_indirectAddr d ign ha⟩
  | bz d addr => exact ⟨_, rfl⟩
  | bp d addr => exact ⟨_, rfl⟩
  | jr d ign => exact ⟨_, rfl⟩
  | jl d addr => exact writeReg_answers s d _ _

/-- Settles O12: at an address of memory a Running state has a step unless the word there is an
unmet input request. -/
theorem stepIsEnabledExactly : Obligations.StepIsEnabledExactly := by
  unfold Obligations.StepIsEnabledExactly
  intro s hpc
  refine ⟨⟨?steps, ?enabled⟩, fun hrun hreq hin => ?waits⟩
  case steps =>
    rintro ⟨t, hstep⟩
    obtain ⟨hrun, -, hexec⟩ := step_next_cases hstep
    refine ⟨hrun, or_iff_not_imp_left.mpr fun hreq hin => ?_⟩
    rw [exec_of_unmetRequest ⟨not_not.mp hreq, hin⟩] at hexec
    cases hexec
  case enabled =>
    rintro ⟨hrun, hmet⟩
    rw [step_running hrun hpc]
    exact exec_answers fun hunmet => hmet.elim (· hunmet.1) (· hunmet.2)
  case waits =>
    rw [step_running hrun hpc]
    exact exec_of_unmetRequest ⟨hreq, hin⟩

/-- A step waits only Running at an unmet input request (R101, R112). -/
theorem step_waiting_cases {s : State} (h : step s = .fault .waiting) :
    s.run = .running ∧ s.pc ≤ 255 ∧
      UnmetRequest (decode (s.memRead (BitVec.ofNat 8 s.pc))) s := by
  have hrun : s.run = .running := by
    by_contra hrun
    rw [step_of_not_running hrun] at h
    cases h
  have hpc : s.pc ≤ 255 := by
    by_contra hpc
    simp [step, hrun, State.fetchAddr, Config.topAddr, hpc] at h
  refine ⟨hrun, hpc, ?_⟩
  by_contra hmet
  obtain ⟨t, ht⟩ := exec_answers hmet
  rw [step_running hrun hpc, ht] at h
  cases h

/-- What `WriteReg` leaves of everything but registers, run and record: either end keeps it. -/
theorem writeReg_keeps (s : State) (d : RegIdx) (v : Word) (n : Nat) :
    ∃ t, writeReg s d v n = .next t ∧ t.mem = s.mem ∧ t.inputs = s.inputs ∧ t.trace = s.trace := by
  unfold writeReg
  split
  · exact ⟨_, rfl, rfl, rfl, rfl⟩
  · exact ⟨_, rfl, rfl, rfl, rfl⟩

/-- Settles O13: the next step runs the same `LD Rd, 0xFF`, now with one word offered. -/
theorem offeredWordEndsTheWait : Obligations.OfferedWordEndsTheWait := by
  unfold Obligations.OfferedWordEndsTheWait
  intro s w hwait
  obtain ⟨hrun, hpc, ⟨d, hreq⟩, hin⟩ := step_waiting_cases hwait
  have hoffered : (s.offer w).inputs = w :: [] := by rw [offer_inputs, hin, List.nil_append]
  have hstep : step (s.offer w) = exec (.ld d Config.ioAddr) (s.offer w) := by
    rw [← hreq]
    exact step_running hrun hpc
  obtain ⟨t, ht, hmem, hinputs, htrace⟩ :=
    writeReg_keeps ((s.offer w).afterInput w []) d w (s.pc + 1)
  refine ⟨t, ?_, ?_, hinputs, htrace⟩
  · rw [hstep, exec_ld_port_cons d hoffered]
    exact ht
  · rw [State.memRead, hmem]
    exact read_write_same _ _ _

/-- A register write that does not end the run goes on at the pc given. -/
theorem writeReg_pc {s t : State} {d : RegIdx} {v : Word} {n : Nat}
    (h : writeReg s d v n = .next t) (ht : t.run ≠ .faulted) : t.pc = n := by
  rcases writeReg_cases h with ⟨_, rfl⟩ | ⟨_, rfl⟩
  · exact absurd rfl ht
  · rfl

theorem aluWrite_pc {s t : State} {d : RegIdx} {r : Int} (h : aluWrite s d r = .next t)
    (ht : t.run ≠ .faulted) : t.pc = s.pc + 1 := by
  rcases aluWrite_cases h with ⟨_, rfl⟩ | ⟨_, _, rfl⟩ | ⟨_, _, rfl⟩
  · exact absurd rfl ht
  · exact absurd rfl ht
  · rfl

theorem shiftWrite_pc {s t : State} {d : RegIdx} {f : Int → Nat → Int} {a b : Int}
    (h : shiftWrite s d f a b = .next t) (ht : t.run ≠ .faulted) : t.pc = s.pc + 1 := by
  rcases shiftWrite_cases h with ⟨_, rfl⟩ | ⟨_, h⟩
  · exact absurd rfl ht
  · exact aluWrite_pc h ht

/-- Settles O15: each of these instructions ends in a commit of `pc + 1` or in a fatal error. -/
theorem sequentialInstructionsGoOnAtPcPlusOne :
    Obligations.SequentialInstructionsGoOnAtPcPlusOne := by
  unfold Obligations.SequentialInstructionsGoOnAtPcPlusOne
  intro i s t _ h ht hop
  cases i with
  | hlt ign => simp [Instr.opcode] at hop
  | add d rs rt => exact aluWrite_pc h ht
  | sub d rs rt => exact aluWrite_pc h ht
  | and d rs rt => exact aluWrite_pc h ht
  | xor d rs rt => exact aluWrite_pc h ht
  | shl d rs rt => exact shiftWrite_pc h ht
  | shr d rs rt => exact shiftWrite_pc h ht
  | lda d addr => exact writeReg_pc h ht
  | ld d addr =>
    by_cases hunmet : UnmetRequest (.ld d addr) s
    · rw [exec_of_unmetRequest hunmet] at h
      cases h
    · obtain ⟨s', v, hld⟩ := exec_ld_eq_writeReg hunmet
      rw [hld] at h
      exact writeReg_pc h ht
  | st d addr => cases h; rfl
  | ldi d rt ign =>
    cases ha : indirectAddr (s.readReg rt) with
    | none => rw [exec_ldi_of_not_indirectAddr d ign ha] at h; cases h; exact absurd rfl ht
    | some a => rw [exec_ldi_of_indirectAddr d ign ha] at h; exact writeReg_pc h ht
  | sti d rt ign =>
    cases ha : indirectAddr (s.readReg rt) with
    | none => rw [exec_sti_of_not_indirectAddr d ign ha] at h; cases h; exact absurd rfl ht
    | some a => rw [exec_sti_of_indirectAddr d ign ha] at h; cases h; rfl
  | bz d addr => simp [Instr.opcode] at hop
  | bp d addr => simp [Instr.opcode] at hop
  | jr d ign => simp [Instr.opcode] at hop
  | jl d addr => simp [Instr.opcode] at hop

end Sys2Proof.Machine
end

section
/-! The invariant of the machine (R21, R24, R28, R33), update by update. -/

namespace Sys2Proof.Machine

theorem State.Inv.halted {s : State} (h : s.Inv) (hrun : s.run = .running) :
    State.Inv { s with run := .halted } where
  memCanonical := h.memCanonical
  regZero := h.regZero
  pcWhileRunning := nofun
  pcBound := h.pcBound
  faultRecorded := by simp [h.noFault_of_running hrun]
  faultAtPc := nofun
  faultShape := h.faultShape

/-- What a raise records has the fields of its kind (R33, R220). -/
theorem RaisedValue.wellShaped {k : FaultKind} {x : Option Int} (h : RaisedValue k x) {pc : Nat}
    (hpc : pc ≤ 255) :
    FaultRecord.wellShaped { kind := k, pc := some pc, value := x } := by
  have hat : ∃ p, some pc = some p ∧ p ≤ 255 := ⟨pc, rfl, hpc⟩
  rcases h with ⟨rfl, r, rfl, hr⟩ | ⟨rfl, rfl⟩ | ⟨rfl, b, rfl, hb⟩ | ⟨rfl, v, rfl, hv⟩
  · exact ⟨hat, r, rfl, by omega⟩
  · exact ⟨hat, rfl⟩
  · exact ⟨hat, b, rfl, hb⟩
  · exact ⟨hat, v, rfl, hv⟩

theorem State.Inv.takeFault {s : State} (h : s.Inv) (hpc : s.pc ≤ 255) {k : FaultKind}
    {x : Option Int} (hx : RaisedValue k x) (hk : k ≠ .noFault) : (s.takeFault k x).Inv where
  memCanonical := h.memCanonical
  regZero := h.regZero
  pcWhileRunning := nofun
  pcBound := h.pcBound
  faultRecorded := iff_of_true rfl hk
  faultAtPc := fun _ => rfl
  faultShape := hx.wellShaped hpc

/-- A write to any register but `R0` keeps the invariant (R24). -/
theorem State.Inv.setReg {s : State} (h : s.Inv) {d : RegIdx} (hd : d ≠ 0#4) (v : Word) :
    (s.setReg d v).Inv :=
  { h with regZero := (readReg_setReg_other s v hd.symm).trans h.regZero }

/-- The invariant does not speak of the words offered or the trace, and every write keeps the
canonical form. -/
theorem State.Inv.write {s : State} (h : s.Inv) (a : Addr) (v : Word) (inputs : List Word)
    (trace : List Event) :
    State.Inv { s with mem := s.mem.write a v, inputs := inputs, trace := trace } :=
  { h with memCanonical := wf_write h.memCanonical a v }

theorem State.Inv.memWrite {s : State} (h : s.Inv) (a : Addr) (v : Word) :
    (s.memWrite a v).Inv := by
  rw [memWrite_eq]
  exact h.write a v s.inputs _

/-- The commit keeps the invariant of a Running state: its halt test keeps the pc an address while
Running (R106). -/
theorem State.Inv.commit {s : State} (h : s.Inv) (hrun : s.run = .running) {n : Nat}
    (hn : n ≤ 0x10000) : (s.commit n).Inv := by
  by_cases hin : n ≤ 255
  · rw [commit_of_le s hin]
    exact { h with
      pcWhileRunning := fun _ => hin
      pcBound := hn
      faultAtPc := fun hf => absurd (hrun.symm.trans hf) (by decide) }
  · have hhalted := h.halted hrun
    rw [commit_of_gt s (Nat.lt_of_not_le hin)]
    exact { hhalted with
      pcWhileRunning := nofun
      pcBound := hn
      faultAtPc := nofun }

/-- A plain effect keeps the invariant of a Running state. -/
theorem PlainEffect.inv {i : Instr} {s t : State} (h : PlainEffect i s t) (hs : s.Inv)
    (hrun : s.run = .running) (hpc : s.pc ≤ 255) : t.Inv := by
  cases h with
  | halts ign hi => exact hs.halted hrun
  | raises k x hx hi => exact hs.takeFault hpc hx hi.kind_ne_noFault
  | writes d v n hd hi hn => exact (hs.setReg hd v).commit hrun (by omega)
  | stores a v hi hw => exact (hs.memWrite a v).commit (by rw [memWrite_run, hrun]) (by omega)
  | moves n hi hn => exact hs.commit hrun (by omega)

/-- Settles O49: a step has a plain effect, or is the port read followed by a register write or its
fatal error; each keeps the invariant. -/
theorem stepKeepsTheInvariant : Obligations.StepKeepsTheInvariant := by
  unfold Obligations.StepKeepsTheInvariant
  intro s t hs hstep
  obtain ⟨hrun, hpc, hexec⟩ := step_next_cases hstep
  rcases exec_next_cases hexec with ⟨hplain, -⟩ | ⟨d, w, s', -, hin, hend⟩
  · exact hplain.inv hs hrun hpc
  · obtain ⟨rest, -, rfl⟩ := inPort_cases hin
    have hread := hs.write Config.ioAddr w rest (s.trace ++ [.input w])
    rcases hend with ⟨-, rfl⟩ | ⟨hd, rfl⟩
    · exact hread.takeFault hpc (.inr (.inl ⟨rfl, rfl⟩)) (by decide)
    · exact (hread.setReg hd w).commit hrun (by omega)

/-- Settles O48: nothing is listed in memory, every register is zero and nothing is recorded. -/
theorem resetMeetsTheInvariant : Obligations.ResetMeetsTheInvariant := by
  unfold Obligations.ResetMeetsTheInvariant
  refine ⟨?inv, nofun⟩
  case inv => exact {
    memCanonical := wf_empty
    regZero := readReg_reset 0#4
    pcWhileRunning := fun _ => by decide
    pcBound := by decide
    faultRecorded := by decide
    faultAtPc := nofun
    faultShape := ⟨rfl, rfl⟩ }

end Sys2Proof.Machine
end

section
/-! The port cell and the events (R53, R55, R61), and the words consumed (R57). -/

namespace Sys2Proof.Machine

/-- An instruction that stores to a cell is the port read of `LD Rd, 0xFF` or completes as the `ST`
of a register there. -/
theorem exec_of_storeAddr {i : Instr} {s : State} {a : Addr} (h : storeAddr i s = some a) :
    ((∃ d, i = .ld d Config.ioAddr) ∧ a = Config.ioAddr) ∨
    ∃ d, exec i s = exec (.st d a) s := by
  cases i with
  | ld d addr =>
    by_cases haddr : addr = Config.ioAddr
    · simp only [storeAddr, haddr, if_true, Option.some.injEq] at h
      exact .inl ⟨⟨d, by rw [haddr]⟩, h.symm⟩
    · simp [storeAddr, haddr] at h
  | st d addr => cases h; exact .inr ⟨d, rfl⟩
  | sti d rt ign => exact .inr ⟨d, exec_sti_of_indirectAddr d ign h⟩
  | _ => cases h

/-- What an instruction does at the port: a store to cell `0xFF` appends one event, whose word the
cell then holds; anything else leaves the trace and that cell alone. -/
theorem exec_port_cases {i : Instr} {s t : State} (h : exec i s = .next t) :
    (storeAddr i s = some Config.ioAddr ∧
      ∃ e, t.trace = s.trace ++ [e] ∧ t.memRead Config.ioAddr = e.word) ∨
    (storeAddr i s ≠ some Config.ioAddr ∧ t.trace = s.trace ∧
      t.memRead Config.ioAddr = s.memRead Config.ioAddr) := by
  rcases exec_next_cases h with ⟨hplain, hport⟩ | ⟨d, w, s', rfl, hin, hend⟩
  · by_cases hstore : storeAddr i s = some Config.ioAddr
    · rcases exec_of_storeAddr hstore with ⟨⟨d, hi⟩, -⟩ | ⟨d, hst⟩
      · exact absurd hi (hport d)
      · rw [hst, exec_st] at h
        cases h
        refine .inl ⟨hstore, .output (s.readReg d), ?_, memRead_memWrite_same _ _ _⟩
        rw [commit_trace, memWrite_trace, if_pos rfl]
    · refine .inr ⟨hstore, ?_⟩
      cases hplain with
      | halts ign hi => exact ⟨rfl, rfl⟩
      | raises k x hx hi => exact ⟨rfl, rfl⟩
      | writes d v n hd hi hn => exact ⟨rfl, rfl⟩
      | stores a v hi hw =>
        have ha : a ≠ Config.ioAddr := fun e => hstore (e ▸ hi)
        exact ⟨by simp [ha], memRead_memWrite_other s v ha.symm⟩
      | moves n hi hn => exact ⟨rfl, rfl⟩
  · obtain ⟨rest, -, rfl⟩ := inPort_cases hin
    refine .inl ⟨by rw [storeAddr, if_pos rfl], .input w, ?_⟩
    have hcell : (s.mem.write Config.ioAddr w).read Config.ioAddr = w := read_write_same _ _ _
    rcases hend with ⟨-, rfl⟩ | ⟨-, rfl⟩
    · exact ⟨rfl, hcell⟩
    · exact ⟨rfl, hcell⟩

/-- Settles O36: the two cases at the port. -/
theorem portEventsAreExactlyTheWritesOfThePortCell :
    Obligations.PortEventsAreExactlyTheWritesOfThePortCell := by
  unfold Obligations.PortEventsAreExactlyTheWritesOfThePortCell
  intro i s t h
  rcases exec_port_cases h with ⟨hstore, hevent⟩ | ⟨hstore, htrace, -⟩
  · exact ⟨fun _ => hevent, fun hne => absurd hstore hne⟩
  · exact ⟨fun heq => absurd heq hstore, fun _ => htrace⟩

/-- Settles O50: the last event is the one just appended, or it and the port cell are unchanged. -/
theorem stepKeepsThePortCellCurrent : Obligations.StepKeepsThePortCellCurrent := by
  unfold Obligations.StepKeepsThePortCellCurrent
  intro s t hs hstep
  obtain ⟨-, -, hexec⟩ := step_next_cases hstep
  intro last hlast
  rcases exec_port_cases hexec with ⟨-, e, htrace, hcell⟩ | ⟨-, htrace, hcell⟩
  · rw [htrace, List.getLast?_concat] at hlast
    cases hlast
    exact hcell
  · rw [htrace] at hlast
    rw [hcell]
    exact hs last hlast

theorem inputsConsumed_append (xs ys : List Event) :
    inputsConsumed (xs ++ ys) = inputsConsumed xs ++ inputsConsumed ys := by
  induction xs with
  | nil => rfl
  | cons e rest ih =>
    cases e with
    | input w => exact congrArg (w :: ·) ih
    | output w => exact ih

/-- No plain effect records an input word. -/
theorem PlainEffect.inputsConsumed_eq {i : Instr} {s t : State} (h : PlainEffect i s t) :
    inputsConsumed t.trace = inputsConsumed s.trace := by
  cases h with
  | halts ign hi => rfl
  | raises k x hx hi => rfl
  | writes d v n hd hi hn => rfl
  | stores a v hi hw =>
    rw [commit_trace, memWrite_trace]
    split
    · rw [inputsConsumed_append]
      exact List.append_nil _
    · rfl
  | moves n hi hn => rfl

/-- Settles O51: the port read moves the next word offered to the end of the words consumed; nothing
else touches either. -/
theorem inputWordsAreConsumedInOrder : Obligations.InputWordsAreConsumedInOrder := by
  unfold Obligations.InputWordsAreConsumedInOrder
  intro s t hstep
  obtain ⟨-, -, hexec⟩ := step_next_cases hstep
  rcases exec_next_cases hexec with ⟨hplain, -⟩ | ⟨d, w, s', -, hin, hend⟩
  · rw [hplain.inputsConsumed_eq, hplain.inputs_eq]
  · obtain ⟨rest, hoffered, rfl⟩ := inPort_cases hin
    have hmoved : inputsConsumed (s.trace ++ [.input w]) ++ rest =
        inputsConsumed s.trace ++ s.inputs := by
      rw [inputsConsumed_append, hoffered]
      exact List.append_assoc _ [w] rest
    rcases hend with ⟨-, rfl⟩ | ⟨-, rfl⟩
    · exact hmoved
    · exact hmoved

end Sys2Proof.Machine
end

section
/-! Which fatal errors there are, and that they are precise (R24, R108, R220, R226). -/

namespace Sys2Proof.Machine

/-- `HLT`, the stores, the branches and `JR` write no register (R25). -/
theorem regWritten_of_opcode {i : Instr} (h : i.opcode.toNat ∈ [0, 9, 11, 12, 13, 14]) :
    regWritten i = none := by
  cases i with
  | hlt ign => rfl
  | st d addr => rfl
  | sti d rt ign => rfl
  | bz d addr => rfl
  | bp d addr => rfl
  | jr d ign => rfl
  | _ => simp [Instr.opcode] at h

/-- A plain effect of an instruction that writes a register (R25): a fatal error, or that write and
the commit. -/
theorem PlainEffect.of_regWritten {i : Instr} {s t : State} {d : RegIdx} (h : PlainEffect i s t)
    (hi : regWritten i = some d) :
    (∃ k x, MayRaise i k ∧ t = s.takeFault k x) ∨
    (d ≠ 0#4 ∧ ∃ v n, t = (s.setReg d v).commit n) := by
  cases h with
  | halts ign hhlt => rw [hhlt] at hi; cases hi
  | raises k x hx hk => exact .inl ⟨k, x, hk, rfl⟩
  | writes d' v n hd hi' hn =>
    cases hi.symm.trans hi'
    exact .inr ⟨hd, v, n, rfl⟩
  | stores a v hst hw => cases hi.symm.trans hw
  | moves n hop hn => cases hi.symm.trans (regWritten_of_opcode
      ((by decide : [12, 13, 14] ⊆ [0, 9, 11, 12, 13, 14]) hop))

/-- Settles O17: with `R0` as the register written only the fatal error is left, on the state before
or, for `LD R0, 0xFF`, on the state after the port read. -/
theorem writingRegisterZeroEndsTheRun : Obligations.WritingRegisterZeroEndsTheRun := by
  unfold Obligations.WritingRegisterZeroEndsTheRun
  intro i s t hi h
  rcases exec_next_cases h with ⟨hplain, -⟩ | ⟨d, w, s', rfl, hin, hend⟩
  · rcases hplain.of_regWritten hi with ⟨k, x, -, rfl⟩ | ⟨hd, -⟩
    · exact ⟨rfl, rfl, rfl, rfl⟩
    · exact absurd rfl hd
  · obtain ⟨rest, -, rfl⟩ := inPort_cases hin
    rcases hend with ⟨-, rfl⟩ | ⟨hd, -⟩
    · exact ⟨rfl, rfl, rfl, rfl⟩
    · exact absurd (Option.some.inj hi) hd

/-- A commit from a Running state does not end in a fault (R106). -/
theorem commit_run_ne_faulted {s : State} (hrun : s.run = .running) (n : Nat) :
    (s.commit n).run ≠ .faulted := by
  rw [commit_run, hrun]
  split <;> decide

/-- A plain effect that ends a Running state in a fault is a raise on that state. -/
theorem PlainEffect.of_faulted {i : Instr} {s t : State} (h : PlainEffect i s t)
    (hrun : s.run = .running) (ht : t.run = .faulted) :
    ∃ k x, MayRaise i k ∧ t = s.takeFault k x := by
  cases h with
  | halts ign hi => cases ht
  | raises k x hx hk => exact ⟨k, x, hk, rfl⟩
  | writes d v n hd hi hn =>
    exact absurd ht (commit_run_ne_faulted (s := s.setReg d v) hrun n)
  | stores a v hi hw =>
    exact absurd ht (commit_run_ne_faulted ((memWrite_run s v a).trans hrun) _)
  | moves n hi hn => exact absurd ht (commit_run_ne_faulted hrun n)

/-- Every fatal error (R108, R226): a raise on the state before, or by `LD R0, 0xFF` on the state
after the port read (D12). -/
theorem exec_faulted_cases {i : Instr} {s t : State} (hrun : s.run = .running)
    (h : exec i s = .next t) (ht : t.run = .faulted) :
    (i ≠ .ld 0#4 Config.ioAddr ∧ ∃ k x, MayRaise i k ∧ t = s.takeFault k x) ∨
    (i = .ld 0#4 Config.ioAddr ∧ ∃ w rest, s.inputs = w :: rest ∧
      t = (s.afterInput w rest).takeFault .reservedRegisterWrite none) := by
  rcases exec_next_cases h with ⟨hplain, hport⟩ | ⟨d, w, s', rfl, hin, hend⟩
  · exact .inl ⟨hport 0#4, hplain.of_faulted hrun ht⟩
  · obtain ⟨rest, hoffered, rfl⟩ := inPort_cases hin
    rcases hend with ⟨rfl, rfl⟩ | ⟨-, rfl⟩
    · exact .inr ⟨rfl, w, rest, hoffered, rfl⟩
    · exact absurd ht (commit_run_ne_faulted (s := (s.afterInput w rest).setReg d w) hrun _)

/-- Settles O18: a raise writes the run status and the record alone. -/
theorem fatalErrorsArePrecise : Obligations.FatalErrorsArePrecise := by
  unfold Obligations.FatalErrorsArePrecise
  intro i s t hrun h ht
  rcases exec_faulted_cases hrun h ht with ⟨hi, k, x, hk, rfl⟩ | ⟨rfl, w, rest, hoffered, rfl⟩
  · exact ⟨rfl, rfl, rfl, hk.kind_ne_noFault, .inr ⟨hi, rfl, rfl, rfl⟩⟩
  · exact ⟨rfl, rfl, rfl, by simp, .inl ⟨rfl, w, rest, hoffered, rfl, rfl, rfl⟩⟩

/-- `WriteReg` raises no other kind than its own (R23, R222). -/
theorem writeReg_fault_kind {s t : State} {d : RegIdx} {v : Word} {n : Nat}
    (hrun : s.run = .running) (h : writeReg s d v n = .next t) (ht : t.run = .faulted) :
    t.fault.kind = .reservedRegisterWrite := by
  rcases writeReg_cases h with ⟨-, rfl⟩ | ⟨-, rfl⟩
  · rfl
  · exact absurd ht (commit_run_ne_faulted (s := s.setReg d v) hrun n)

/-- `SHR` never overflows (R138): it raises the count's kind or `WriteReg`'s. -/
theorem shr_fault_kind {d rs rt : RegIdx} {s t : State} (hrun : s.run = .running)
    (h : exec (.shr d rs rt) s = .next t) (ht : t.run = .faulted) :
    t.fault.kind ≠ .arithmeticOverflow := by
  by_cases hcount : (s.readReg rt).toNat < 0x8000
  · rw [exec_shr_of_nonneg d rs hcount] at h
    rw [writeReg_fault_kind hrun h ht]
    decide
  · rw [exec_shr, shiftWrite_of_negative s d _ _ (not_lt.mp hcount)] at h
    cases h
    exact nofun

/-- The ALU instructions whose result can leave the range (R220, R221). -/
theorem overflow_cases {i : Instr} {s t : State} (hrun : s.run = .running)
    (h : exec i s = .next t) (ht : t.run = .faulted) (hkind : t.fault.kind = .arithmeticOverflow)
    (hi : MayRaise i .arithmeticOverflow) :
    ∃ d rs rt, i = .add d rs rt ∨ i = .sub d rs rt ∨ i = .shl d rs rt := by
  cases i with
  | add d rs rt => exact ⟨d, rs, rt, .inl rfl⟩
  | sub d rs rt => exact ⟨d, rs, rt, .inr (.inl rfl)⟩
  | shl d rs rt => exact ⟨d, rs, rt, .inr (.inr rfl)⟩
  | and d rs rt =>
    rw [exec_and] at h
    cases hkind.symm.trans (writeReg_fault_kind hrun h ht)
  | xor d rs rt =>
    rw [exec_xor] at h
    cases hkind.symm.trans (writeReg_fault_kind hrun h ht)
  | shr d rs rt => exact absurd hkind (shr_fault_kind hrun h ht)
  | _ => simp [MayRaise, Instr.opcode] at hi

theorem MayRaise.shift {i : Instr} (h : MayRaise i .shiftCountNegative) :
    ∃ d rs rt, i = .shl d rs rt ∨ i = .shr d rs rt := by
  cases i with
  | shl d rs rt => exact ⟨d, rs, rt, .inl rfl⟩
  | shr d rs rt => exact ⟨d, rs, rt, .inr rfl⟩
  | _ => simp [MayRaise, Instr.opcode] at h

theorem MayRaise.indirect {i : Instr} (h : MayRaise i .addressOutOfRange) :
    ∃ d rt ign, i = .ldi d rt ign ∨ i = .sti d rt ign := by
  cases i with
  | ldi d rt ign => exact ⟨d, rt, ign, .inl rfl⟩
  | sti d rt ign => exact ⟨d, rt, ign, .inr rfl⟩
  | _ => simp [MayRaise, Instr.opcode] at h

/-- `HLT`, `ST`, `BZ`, `BP` and `JR` raise nothing (R220, R225). -/
theorem MayRaise.opcode_notMem {i : Instr} {k : FaultKind} (h : MayRaise i k) :
    i.opcode.toNat ∉ [0, 9, 12, 13, 14] := by
  intro hop
  cases k with
  | noFault => exact h
  | reservedRegisterWrite =>
    have hnone : regWritten i = none :=
      regWritten_of_opcode ((by decide : [0, 9, 12, 13, 14] ⊆ [0, 9, 11, 12, 13, 14]) hop)
    cases hnone.symm.trans h
  | _ => simp only [MayRaise, List.mem_cons, List.not_mem_nil, or_false] at h hop; omega

/-- The kind an instruction ends the run with is one it may raise. -/
theorem mayRaise_of_faulted {i : Instr} {s t : State} (hrun : s.run = .running)
    (h : exec i s = .next t) (ht : t.run = .faulted) : MayRaise i t.fault.kind := by
  rcases exec_faulted_cases hrun h ht with ⟨-, k, x, hk, rfl⟩ | ⟨rfl, w, rest, -, rfl⟩
  · exact hk
  · exact rfl

/-- Settles O19: by the kind the instruction raised. -/
theorem fatalErrorKindsByInstruction : Obligations.FatalErrorKindsByInstruction := by
  unfold Obligations.FatalErrorKindsByInstruction
  intro i s t hrun h ht
  have hk := mayRaise_of_faulted hrun h ht
  refine ⟨fun hkind => ?_, fun hkind => ?_, fun hkind => ?_, fun hkind => ?_, hk.opcode_notMem⟩
  all_goals rw [hkind] at hk
  · exact overflow_cases hrun h ht hkind hk
  · exact hk
  · exact hk.shift
  · exact hk.indirect

end Sys2Proof.Machine
end

section
/-! The frames (R25). -/

namespace Sys2Proof.Machine

theorem keepsAllButRegs_takeFault (changed : List RegIdx) (s : State) (k : FaultKind)
    (x : Option Int) : KeepsAllButRegs changed s (s.takeFault k x) :=
  ⟨fun _ _ => rfl, fun _ => rfl, rfl, rfl, fun hrun => absurd rfl hrun⟩

theorem keepsAllButRegs_commit (s : State) (n : Nat) : KeepsAllButRegs [] s (s.commit n) :=
  ⟨fun _ _ => rfl, fun _ => rfl, rfl, rfl, fun _ => rfl⟩

theorem keepsAllButRegs_setReg_commit (s : State) (d : RegIdx) (v : Word) (n : Nat) :
    KeepsAllButRegs [d] s ((s.setReg d v).commit n) :=
  ⟨fun _ hr => readReg_setReg_other s v (List.ne_of_not_mem_cons hr), fun _ => rfl, rfl, rfl,
    fun _ => rfl⟩

/-- An instruction that writes a register, but for the port read, has the frame of that register. -/
theorem PlainEffect.keepsAllButRegs {i : Instr} {s t : State} {d : RegIdx}
    (h : PlainEffect i s t) (hi : regWritten i = some d) : KeepsAllButRegs [d] s t := by
  rcases h.of_regWritten hi with ⟨k, x, -, rfl⟩ | ⟨-, v, n, rfl⟩
  · exact keepsAllButRegs_takeFault [d] s k x
  · exact keepsAllButRegs_setReg_commit s d v n

/-- Settles O44: each form writes `R[d]`, and none is the port read. -/
theorem frameOfRegisterWriters : Obligations.FrameOfRegisterWriters := by
  unfold Obligations.FrameOfRegisterWriters
  intro i d rs rt addr ign s t hi h
  have hwritten : regWritten i = some d := by
    rcases hi with rfl | rfl | rfl | rfl | rfl | rfl | rfl | rfl | ⟨rfl, -⟩ | rfl <;> rfl
  have hport : ∀ d', i ≠ .ld d' Config.ioAddr := by
    rintro d' rfl
    obtain ⟨hsame, hbelow⟩ : Instr.ld d' Config.ioAddr = .ld d addr ∧ addr ≠ 0xFF#8 := by
      simpa using hi
    cases hsame
    exact hbelow rfl
  exact (plainEffect_of_exec hport h).keepsAllButRegs hwritten

/-- Settles O45: `HLT` writes the run status alone, the others are a commit. -/
theorem frameOfControlFlow : Obligations.FrameOfControlFlow := by
  unfold Obligations.FrameOfControlFlow
  intro i d addr ign ign' s t hi h
  rcases hi with rfl | rfl | rfl | rfl
  · cases h
    exact ⟨⟨fun _ _ => rfl, fun _ => rfl, rfl, rfl, fun _ => rfl⟩, rfl⟩
  all_goals
    cases h
    exact ⟨keepsAllButRegs_commit s _, rfl⟩

theorem keepsAllButCell_takeFault (cell : Option Addr) (changed : List RegIdx) (s : State)
    (k : FaultKind) (x : Option Int) : KeepsAllButCell cell changed s (s.takeFault k x) :=
  ⟨fun _ _ => rfl, fun _ _ => rfl, fun hrun => absurd rfl hrun⟩

theorem keepsAllButCell_memWrite_commit (s : State) (a : Addr) (v : Word) (n : Nat) :
    KeepsAllButCell (some a) [] s ((s.memWrite a v).commit n) :=
  ⟨fun _ _ => by rw [commit_readReg, memWrite_readReg],
    fun _ hb => memRead_memWrite_other s v fun e => hb (congrArg some e.symm),
    fun _ => by rw [commit_fault, memWrite_fault]⟩

theorem keepsAllButCell_ld_port {d : RegIdx} {s t : State}
    (h : exec (.ld d Config.ioAddr) s = .next t) :
    KeepsAllButCell (some Config.ioAddr) [d] s t := by
  obtain ⟨w, s', hin, hend⟩ := execLd_port_cases h
  obtain ⟨rest, -, rfl⟩ := inPort_cases hin
  have hcells : ∀ a, some Config.ioAddr ≠ some a →
      (s.mem.write Config.ioAddr w).read a = s.mem.read a :=
    fun a ha => read_write_other s.mem w fun e => ha (congrArg some e.symm)
  rcases hend with ⟨-, rfl⟩ | ⟨-, rfl⟩
  · exact ⟨fun _ _ => rfl, hcells, fun hrun => absurd rfl hrun⟩
  · exact ⟨fun _ hr => readReg_setReg_other _ w (List.ne_of_not_mem_cons hr), hcells, fun _ => rfl⟩

/-- Settles O46: `STI` is the `ST` to its checked address or raises. -/
theorem frameOfStores : Obligations.FrameOfStores := by
  unfold Obligations.FrameOfStores
  intro d rt addr ign s t
  refine ⟨fun h => ?st, fun h => ?sti, keepsAllButCell_ld_port⟩
  case st =>
    cases h
    exact keepsAllButCell_memWrite_commit s addr _ _
  case sti =>
    cases ha : indirectAddr (s.readReg rt) with
    | none =>
      rw [exec_sti_of_not_indirectAddr d ign ha] at h
      cases h
      exact keepsAllButCell_takeFault none [] s _ _
    | some a =>
      rw [exec_sti_of_indirectAddr d ign ha] at h
      cases h
      exact keepsAllButCell_memWrite_commit s a _ _

end Sys2Proof.Machine
end

section
/-! A word written to the next cell is the next instruction (R68). -/

namespace Sys2Proof.Machine

theorem addr_of_toNat {a : Addr} {n : Nat} (h : n = a.toNat) : n ≤ 255 ∧ BitVec.ofNat 8 n = a := by
  subst h
  exact ⟨Nat.le_of_lt_succ a.isLt, by simp⟩

/-- After an `ST` to the cell the next pc addresses, the next step runs the word stored. -/
theorem step_after_st {s : State} (hrun : s.run = .running) (d : RegIdx) {a : Addr}
    (ha : s.pc + 1 = a.toNat) :
    ∃ t, exec (.st d a) s = .next t ∧ step t = exec (decode (s.readReg d)) t := by
  obtain ⟨hpc, hcell⟩ := addr_of_toNat ha
  refine ⟨_, exec_st d a s, ?_⟩
  rw [step_commit (by rw [memWrite_run, hrun]) hpc, hcell, memRead_memWrite_same]

/-- Settles O54: `STI` is the `ST` to its checked address, and the port read of `LD Rd, 0xFF` is
fetched the same way. -/
theorem storedWordIsFetchedNext : Obligations.StoredWordIsFetchedNext := by
  unfold Obligations.StoredWordIsFetchedNext
  intro d rt addr ign s hrun
  refine ⟨step_after_st hrun d, fun hrt hpc => ?sti, fun w rest hpc hin hd => ?ld⟩
  case sti =>
    have ha : s.pc + 1 = (BitVec.ofNat 8 (s.readReg rt).toNat).toNat := by
      rw [BitVec.toNat_ofNat]
      omega
    rw [exec_sti_of_indirectAddr d ign (indirectAddr_of_le (hrt ▸ hpc))]
    exact step_after_st hrun d ha
  case ld =>
    have hcell : ((s.afterInput w rest).setReg d w).memRead 0xFF#8 = w := read_write_same _ _ _
    refine ⟨_, (exec_ld_port_cons d hin).trans (writeReg_ne_zero _ w _ hd), ?_⟩
    rw [hpc, step_commit (s := (s.afterInput w rest).setReg d w) hrun (by decide), hcell]

end Sys2Proof.Machine
end

section
/-! The canonical form of memory determines it (log entry 1). -/

namespace Sys2Proof.Machine

/-- With rising addresses, a listed entry is what its cell holds. -/
theorem lookup_of_mem {m : Memory} (hm : m.Pairwise fun p q => p.1 < q.1) {p : Nat × Word}
    (hp : p ∈ m) : m.lookup p.1 = p.2 := by
  induction m with
  | nil => cases hp
  | cons q rest ih =>
    obtain ⟨hq, hrest⟩ := List.pairwise_cons.mp hm
    rcases List.mem_cons.mp hp with rfl | hp
    · simp [Memory.lookup]
    · rw [Memory.lookup, if_neg (Nat.ne_of_lt (hq p hp))]
      exact ih hrest hp

/-- A cell that holds anything but the unlisted value is listed. -/
theorem mem_of_lookup {m : Memory} {p : Nat × Word} (hp : m.lookup p.1 = p.2)
    (hv : p.2 ≠ Memory.unlisted) : p ∈ m := by
  induction m with
  | nil => exact absurd hp.symm hv
  | cons q rest ih =>
    rw [Memory.lookup] at hp
    split at hp
    · next hk => rw [Prod.ext hk hp]; exact List.mem_cons_self
    · exact List.mem_cons_of_mem q (ih hp)

/-- A listed entry of a canonical memory is listed in every memory that reads the same. -/
theorem mem_of_read_eq {m m' : Memory} (hm : m.wf) (hread : ∀ a, m.read a = m'.read a)
    {p : Nat × Word} (hp : p ∈ m) : p ∈ m' := by
  obtain ⟨hrising, hentries⟩ := hm
  obtain ⟨haddr, hv⟩ := hentries p hp
  have hcell : (BitVec.ofNat 8 p.1).toNat = p.1 := by
    rw [BitVec.toNat_ofNat]
    exact Nat.mod_eq_of_lt (Nat.lt_succ_of_le haddr)
  have hlookup : m.lookup p.1 = m'.lookup p.1 := by
    have h := hread (BitVec.ofNat 8 p.1)
    rwa [Memory.read, Memory.read, hcell] at h
  exact mem_of_lookup (hlookup.symm.trans (lookup_of_mem hrising hp)) hv

/-- Settles O55: both list the same entries, in the same strictly rising order. -/
theorem canonicalMemoriesWithEqualReadsAreEqual :
    Obligations.CanonicalMemoriesWithEqualReadsAreEqual := by
  unfold Obligations.CanonicalMemoriesWithEqualReadsAreEqual
  intro m m' hm hm' hread
  have : Std.Irrefl fun p q : Nat × Word => p.1 < q.1 := ⟨fun p => Nat.lt_irrefl p.1⟩
  have : Std.Antisymm fun p q : Nat × Word => p.1 < q.1 :=
    ⟨fun _ _ hpq hqp => absurd hpq (Nat.lt_asymm hqp)⟩
  exact hm.1.eq_of_mem_iff hm'.1 fun p =>
    ⟨mem_of_read_eq hm hread, mem_of_read_eq hm' fun a => (hread a).symm⟩

end Sys2Proof.Machine
end

section
/-! What an instruction does not read has no influence on it: the event trace (R20), the fault
record (R35, R228) and the registers R25 does not list. One lemma carries a change of the state
through every instruction; each statement then only says what its change leaves alone. -/

namespace Sys2Proof.Machine

/-- The outcome with its next state, if it has one, changed by `g`. -/
def mapNext (g : State → State) : Result → Result
  | .next t => .next (g t)
  | .fault r => .fault r
  | .refused r => .refused r

/-- The change `f` made before the instruction `i` from a Running state comes out as the change `g`
after it: `i` reads nothing that `f` changes, and each end an instruction can have takes `f` to
`g`. -/
structure Carries (i : Instr) (f g : State → State) : Prop where
  run (s : State) : (f s).run = s.run
  pc (s : State) : (f s).pc = s.pc
  memRead (s : State) (a : Addr) : (f s).memRead a = s.memRead a
  inputs (s : State) : (f s).inputs = s.inputs
  readReg (s : State) : ∀ r ∈ regsRead i, (f s).readReg r = s.readReg r
  afterInput (s : State) (w : Word) (rest : List Word) :
    (f s).afterInput w rest = f (s.afterInput w rest)
  raises (s : State) (k : FaultKind) (x : Option Int) : (f s).takeFault k x = g (s.takeFault k x)
  halts (s : State) : regWritten i = none →
    ({ f s with run := .halted } : State) = g { s with run := .halted }
  moves (s : State) (n : Nat) : s.run = .running → regWritten i = none →
    (f s).commit n = g (s.commit n)
  stores (s : State) (a : Addr) (v : Word) (n : Nat) : s.run = .running → regWritten i = none →
    ((f s).memWrite a v).commit n = g ((s.memWrite a v).commit n)
  writes (s : State) (d : RegIdx) (v : Word) (n : Nat) : s.run = .running →
    regWritten i = some d → ((f s).setReg d v).commit n = g ((s.setReg d v).commit n)

section
variable {i : Instr} {f g : State → State} {s : State} {d : RegIdx}

theorem Carries.writeReg_eq (h : Carries i f g) (hrun : s.run = .running)
    (hi : regWritten i = some d) (v : Word) (n : Nat) :
    writeReg (f s) d v n = mapNext g (writeReg s d v n) := by
  unfold writeReg
  split
  · exact congrArg _ (h.raises s _ _)
  · exact congrArg _ (h.writes s d v n hrun hi)

theorem Carries.aluWrite_eq (h : Carries i f g) (hrun : s.run = .running)
    (hi : regWritten i = some d) (r : Int) :
    aluWrite (f s) d r = mapNext g (aluWrite s d r) := by
  unfold aluWrite
  split
  · rw [h.pc, h.writeReg_eq hrun hi]
  · exact congrArg _ (h.raises s _ _)

theorem Carries.shiftWrite_eq (h : Carries i f g) (hrun : s.run = .running)
    (hi : regWritten i = some d) (shift : Int → Nat → Int) (a b : Int) :
    shiftWrite (f s) d shift a b = mapNext g (shiftWrite s d shift a b) := by
  unfold shiftWrite
  split
  · exact congrArg _ (h.raises s _ _)
  · exact h.aluWrite_eq hrun hi _

end

/-- The change is carried through every instruction. -/
theorem Carries.exec_eq {i : Instr} {f g : State → State} (h : Carries i f g) {s : State}
    (hrun : s.run = .running) : exec i (f s) = mapNext g (exec i s) := by
  have hreg := h.readReg s
  cases i with
  | hlt ign => exact congrArg _ (h.halts s rfl)
  | add d rs rt =>
    rw [exec_add, exec_add, hreg rs (by simp [regsRead]), hreg rt (by simp [regsRead])]
    exact h.aluWrite_eq hrun rfl _
  | sub d rs rt =>
    rw [exec_sub, exec_sub, hreg rs (by simp [regsRead]), hreg rt (by simp [regsRead])]
    exact h.aluWrite_eq hrun rfl _
  | and d rs rt =>
    rw [exec_and, exec_and, h.pc, hreg rs (by simp [regsRead]), hreg rt (by simp [regsRead])]
    exact h.writeReg_eq hrun rfl _ _
  | xor d rs rt =>
    rw [exec_xor, exec_xor, h.pc, hreg rs (by simp [regsRead]), hreg rt (by simp [regsRead])]
    exact h.writeReg_eq hrun rfl _ _
  | shl d rs rt =>
    rw [exec_shl, exec_shl, hreg rs (by simp [regsRead]), hreg rt (by simp [regsRead])]
    exact h.shiftWrite_eq hrun rfl _ _ _
  | shr d rs rt =>
    rw [exec_shr, exec_shr, hreg rs (by simp [regsRead]), hreg rt (by simp [regsRead])]
    exact h.shiftWrite_eq hrun rfl _ _ _
  | lda d addr =>
    rw [exec_lda, exec_lda, h.pc]
    exact h.writeReg_eq hrun rfl _ _
  | ld d addr =>
    by_cases haddr : addr = Config.ioAddr
    · subst haddr
      cases hin : s.inputs with
      | nil => rw [exec_ld_port_nil d hin, exec_ld_port_nil d ((h.inputs s).trans hin)]; rfl
      | cons w rest =>
        rw [exec_ld_port_cons d hin, exec_ld_port_cons d ((h.inputs s).trans hin), h.afterInput,
          h.pc]
        exact h.writeReg_eq (s := s.afterInput w rest) hrun rfl _ _
    · rw [exec_ld d s haddr, exec_ld d (f s) haddr, h.pc, h.memRead]
      exact h.writeReg_eq hrun rfl _ _
  | st d addr =>
    rw [exec_st, exec_st, h.pc, hreg d (by simp [regsRead])]
    exact congrArg _ (h.stores s _ _ _ hrun rfl)
  | ldi d rt ign =>
    have hrt := hreg rt (by simp [regsRead])
    cases ha : indirectAddr (s.readReg rt) with
    | none =>
      rw [exec_ldi_of_not_indirectAddr d ign ha, exec_ldi_of_not_indirectAddr d ign (hrt ▸ ha), hrt]
      exact congrArg _ (h.raises s _ _)
    | some a =>
      rw [exec_ldi_of_indirectAddr d ign ha, exec_ldi_of_indirectAddr d ign (hrt ▸ ha), h.pc,
        h.memRead]
      exact h.writeReg_eq hrun rfl _ _
  | sti d rt ign =>
    have hrt := hreg rt (by simp [regsRead])
    cases ha : indirectAddr (s.readReg rt) with
    | none =>
      rw [exec_sti_of_not_indirectAddr d ign ha, exec_sti_of_not_indirectAddr d ign (hrt ▸ ha), hrt]
      exact congrArg _ (h.raises s _ _)
    | some a =>
      rw [exec_sti_of_indirectAddr d ign ha, exec_sti_of_indirectAddr d ign (hrt ▸ ha), exec_st,
        exec_st, h.pc, hreg d (by simp [regsRead])]
      exact congrArg _ (h.stores s _ _ _ hrun rfl)
  | bz d addr =>
    rw [exec_bz, exec_bz, h.pc, hreg d (by simp [regsRead])]
    exact congrArg _ (h.moves s _ hrun rfl)
  | bp d addr =>
    rw [exec_bp, exec_bp, h.pc, hreg d (by simp [regsRead])]
    exact congrArg _ (h.moves s _ hrun rfl)
  | jr d ign =>
    rw [exec_jr, exec_jr, hreg d (by simp [regsRead])]
    exact congrArg _ (h.moves s _ hrun rfl)
  | jl d addr =>
    simp only [exec, execJl, h.pc]
    exact h.writeReg_eq hrun rfl _ _

/-- A change that every instruction carries is carried by the step, the states without a step
included: the engine reads the run status, the pc and the word there (R100, R102). -/
theorem step_carries {f g : State → State} (h : ∀ i, Carries i f g) (s : State) :
    step (f s) = mapNext g (step s) := by
  have hf := h (.hlt 0#12)
  by_cases hrun : s.run = .running
  · by_cases hpc : s.pc ≤ 255
    · rw [step_running hrun hpc, step_running ((hf.run s).trans hrun) (by rwa [hf.pc]), hf.pc,
        hf.memRead]
      exact (h _).exec_eq hrun
    · simp [step, hf.run, hf.pc, hrun, hpc, State.fetchAddr, Config.topAddr, mapNext]
  · rw [step_of_not_running hrun, step_of_not_running (by rwa [hf.run])]
    rfl

/-! The event trace (R20). -/

/-- The state with earlier events put before its trace. -/
def State.withEarlier (earlier : List Event) (s : State) : State :=
  { s with trace := earlier ++ s.trace }

theorem carries_withEarlier (earlier : List Event) (i : Instr) :
    Carries i (State.withEarlier earlier) (State.withEarlier earlier) where
  run _ := rfl
  pc _ := rfl
  memRead _ _ := rfl
  inputs _ := rfl
  readReg _ _ _ := rfl
  afterInput s w rest := by simp [State.withEarlier, State.afterInput]
  raises _ _ _ := rfl
  halts _ _ := rfl
  moves _ _ _ _ := rfl
  stores s a v n _ _ := by
    rw [memWrite_eq, memWrite_eq]
    split <;> simp [State.withEarlier, State.commit]
  writes _ _ _ _ _ _ := rfl

/-- Settles O52: no instruction reads the trace, and each appends to it. -/
theorem traceIsNeverReadBack : Obligations.TraceIsNeverReadBack := by
  unfold Obligations.TraceIsNeverReadBack
  intro s earlier
  have hstep := step_carries (carries_withEarlier earlier) s
  refine ⟨fun t ht => ?_, fun r hr => ?_⟩
  · rw [ht] at hstep
    exact hstep
  · rw [hr] at hstep
    exact hstep

/-! The fault record (R35, R228). -/

/-- The state with another fault record. -/
def State.withRecord (r : FaultRecord) (s : State) : State := { s with fault := r }

/-- The same, but for a state that has just recorded a fault of its own. -/
def State.withRecordUnlessFaulted (r : FaultRecord) (t : State) : State :=
  if t.run = .faulted then t else t.withRecord r

theorem withRecordUnlessFaulted_commit (r : FaultRecord) {s : State} (hrun : s.run = .running)
    (n : Nat) : (s.commit n).withRecordUnlessFaulted r = (s.withRecord r).commit n :=
  if_neg (commit_run_ne_faulted hrun n)

theorem carries_withRecord (r : FaultRecord) (i : Instr) :
    Carries i (State.withRecord r) (State.withRecordUnlessFaulted r) where
  run _ := rfl
  pc _ := rfl
  memRead _ _ := rfl
  inputs _ := rfl
  readReg _ _ _ := rfl
  afterInput _ _ _ := rfl
  raises _ _ _ := rfl
  halts _ _ := rfl
  moves s n hrun _ := (withRecordUnlessFaulted_commit r hrun n).symm
  stores s a v n hrun _ := by
    rw [withRecordUnlessFaulted_commit r ((memWrite_run s v a).trans hrun), memWrite_eq,
      memWrite_eq]
    rfl
  writes s d v n hrun _ :=
    (withRecordUnlessFaulted_commit r (s := s.setReg d v) hrun n).symm

/-- Settles O53: no instruction reads the record, and only a fatal error writes it. -/
theorem faultRecordIsNeverReadBack : Obligations.FaultRecordIsNeverReadBack := by
  unfold Obligations.FaultRecordIsNeverReadBack
  intro s t r ht
  have hstep : step (s.withRecord r) = .next (t.withRecordUnlessFaulted r) := by
    rw [step_carries (carries_withRecord r) s, ht]
    rfl
  refine ⟨fun hfaulted => ?_, fun hgoes => ?_⟩
  · rw [State.withRecordUnlessFaulted, if_pos hfaulted] at hstep
    exact hstep
  · rw [State.withRecordUnlessFaulted, if_neg hgoes] at hstep
    exact hstep

/-! A register that is not read (R25). -/

theorem setReg_setReg_same (s : State) (r : RegIdx) (v w : Word) :
    (s.setReg r v).setReg r w = s.setReg r w := by
  simp [State.setReg]

theorem setReg_comm (s : State) {r d : RegIdx} (h : d ≠ r) (v w : Word) :
    (s.setReg r v).setReg d w = (s.setReg d w).setReg r v := by
  have hne : r.toNat ≠ d.toNat := fun e => h (BitVec.eq_of_toNat_eq e.symm)
  simp [State.setReg, Vector.set_comm _ _ hne]

/-- What writing `v` to register `r` beforehand comes out as: nothing when the instruction `i`
writes that register and completes, and otherwise `v` in that register. -/
def State.withUnread (i : Instr) (r : RegIdx) (v : Word) (t : State) : State :=
  if regWritten i = some r ∧ t.run ≠ .faulted then t else t.setReg r v

theorem withUnread_of_not_written {i : Instr} {r : RegIdx} (h : regWritten i ≠ some r) (v : Word)
    (t : State) : t.withUnread i r v = t.setReg r v :=
  if_neg fun hc => h hc.1

theorem carries_setReg {i : Instr} {r : RegIdx} (hread : r ∉ regsRead i) (v : Word) :
    Carries i (State.setReg · r v) (State.withUnread i r v) where
  run _ := rfl
  pc _ := rfl
  memRead _ _ := rfl
  inputs _ := rfl
  readReg s r' hr' := readReg_setReg_other s v fun e => hread (e ▸ hr')
  afterInput _ _ _ := rfl
  raises _ _ _ := (if_neg fun hc => hc.2 rfl).symm
  halts s hi := by rw [withUnread_of_not_written (by simp [hi])]; rfl
  moves s n _ hi := by rw [withUnread_of_not_written (by simp [hi])]; rfl
  stores s a w n _ hi := by
    rw [withUnread_of_not_written (by simp [hi]), memWrite_eq, memWrite_eq]
    rfl
  writes s d w n hrun hi := by
    by_cases hd : d = r
    · subst hd
      have hruns := commit_run_ne_faulted (s := s.setReg d w) hrun n
      rw [State.withUnread, if_pos ⟨hi, hruns⟩, setReg_setReg_same]
    · rw [withUnread_of_not_written (by simpa [hi] using hd), setReg_comm s hd]
      rfl

/-- Settles O47: no instruction reads a register R25 does not list for it, and it changes none but
the one it writes. -/
theorem unreadRegistersHaveNoInfluence : Obligations.UnreadRegistersHaveNoInfluence := by
  unfold Obligations.UnreadRegistersHaveNoInfluence
  intro i s t r v hrun hread h
  have hexec : exec i (s.setReg r v) = .next (t.withUnread i r v) := by
    rw [(carries_setReg hread v).exec_eq hrun, h]
    rfl
  refine ⟨fun hwritten hgoes => ?_, fun hkept => ?_⟩
  · rw [hexec, State.withUnread, if_pos ⟨hwritten, hgoes⟩]
  · rw [hexec, State.withUnread, if_neg fun hc => hkept.elim (· hc.1) (hc.2 ·)]

end Sys2Proof.Machine
end
